-- ==== Sys2Proof/Word.lean ====
section
/-! DEFINITION. The word types of the block (00_scope.md R6, R8, R9). -/

namespace Sys2Proof

/-- A memory byte or the contents of a general register: a `u8` (R8). -/
abbrev Byte := BitVec 8

/-- A 16-bit word: an opcode, `I`, `PC` or a stack entry (30_encoding.md R90, 10_state.md R26, R27, R31). -/
abbrev Word := BitVec 16

/-- A 12-bit address, the `nnn` field: a `u12` (30_encoding.md R91). -/
abbrev Addr := BitVec 12

/-- A 4-bit field: a register number, a row count or a key code (30_encoding.md R91, 60_exceptions.md R340). -/
abbrev Nibble := BitVec 4

/-- The number of a general register, V0 to VF (10_state.md R21; R24: "indexes the register file by a 4-bit type"). -/
abbrev Reg := Nibble

end Sys2Proof
end

