-- ==== Sys2Proof/Config.lean ====
section
/-! DEFINITION. The parameters of 00_scope.md R6 and the free inputs of 60_exceptions.md R340. -/

namespace Sys2Proof

/-- The opcode set the block decodes (00_scope.md R2, 30_encoding.md R98). -/
inductive OpSet where
  /-- The 13 opcodes of the source's table. -/
  | baseline
  /-- All 35 opcodes; the default. -/
  | full
  deriving DecidableEq, Repr, Inhabited

/-- The parameters R6 leaves open (`OPSET`, `STACK_DEPTH`, `FONT_BASE` and the four `Q_` parameters).
They are fixed for a machine: every step keeps them (DESIGN CHOICE, log 1). -/
structure Params where
  /-- `OPSET` (decision D1). -/
  opset : OpSet
  /-- `STACK_DEPTH` (decision D12). -/
  stackDepth : Nat
  /-- `FONT_BASE` (decision D13). -/
  fontBase : Addr
  /-- `Q_LOGIC_CLEARS_VF` (decision D3). -/
  qLogicClearsVf : Bool
  /-- `Q_SHIFT_FROM_VY` (decision D3). -/
  qShiftFromVy : Bool
  /-- `Q_LOADSTORE_INC_I` (decision D3). -/
  qLoadstoreIncI : Bool
  /-- `Q_JUMP_VX` (decision D3). -/
  qJumpVx : Bool
  deriving DecidableEq, Repr

/-- The defaults of R6. -/
def Params.default : Params where
  opset := .full
  stackDepth := 16
  fontBase := 0x000#12
  qLogicClearsVf := true
  qShiftFromVy := true
  qLoadstoreIncI := true
  qJumpVx := false

/-- `MEM_SIZE`: the addresses are 0 to 4095 (R6, 20_memory.md R60). -/
abbrev Config.memSize : Nat := 4096

/-- `DISP_W` (R6). -/
abbrev Config.dispW : Nat := 64

/-- `DISP_H` (R6). -/
abbrev Config.dispH : Nat := 32

/-- `PROGRAM_ORIGIN` (R6, 20_memory.md R69). -/
abbrev Config.programOrigin : Word := 0x200#16

/-- `ROM_MAX`, the longest program that fits at the origin (R6, 20_memory.md R69). -/
abbrev Config.romMax : Nat := 3584

/-- The key event of the CPU step number `n` that no schedule supplied: a free draw (60_exceptions.md R340, log 4). -/
opaque Config.freeKeyEvent : Nat → Option Nibble

/-- The held keys of the CPU step number `n` that no schedule supplied: a free draw (R340, log 4). -/
opaque Config.freeKeysDown : Nat → BitVec 16

/-- The random byte of the CPU step number `n` that no schedule supplied: a free draw (R340, 42_register_alu.md R181, log 4). -/
opaque Config.freeRand : Nat → Byte

/-- The conventional glyphs of 93_implementation_defined.md part 3, 5 bytes a digit, for a host that loads them at
`FONT_BASE` (70_reset_and_hazards.md R373). The block does not contain this table; no step reads it. -/
def Config.conventionalFont : List Byte :=
  [0xF0#8, 0x90#8, 0x90#8, 0x90#8, 0xF0#8,  0x20#8, 0x60#8, 0x20#8, 0x20#8, 0x70#8,
   0xF0#8, 0x10#8, 0xF0#8, 0x80#8, 0xF0#8,  0xF0#8, 0x10#8, 0xF0#8, 0x10#8, 0xF0#8] ++
  [0x90#8, 0x90#8, 0xF0#8, 0x10#8, 0x10#8,  0xF0#8, 0x80#8, 0xF0#8, 0x10#8, 0xF0#8,
   0xF0#8, 0x80#8, 0xF0#8, 0x90#8, 0xF0#8,  0xF0#8, 0x10#8, 0x20#8, 0x40#8, 0x40#8] ++
  [0xF0#8, 0x90#8, 0xF0#8, 0x90#8, 0xF0#8,  0xF0#8, 0x90#8, 0xF0#8, 0x10#8, 0xF0#8,
   0xF0#8, 0x90#8, 0xF0#8, 0x90#8, 0x90#8,  0xE0#8, 0x90#8, 0xE0#8, 0x90#8, 0xE0#8] ++
  [0xF0#8, 0x80#8, 0x80#8, 0x80#8, 0xF0#8,  0xE0#8, 0x90#8, 0x90#8, 0x90#8, 0xE0#8,
   0xF0#8, 0x80#8, 0xF0#8, 0x80#8, 0xF0#8,  0xF0#8, 0x80#8, 0xF0#8, 0x80#8, 0x80#8]

end Sys2Proof
end

