-- ==== Sys2Proof/Syntax.lean ====
section
/-! DEFINITION. The instructions: one constructor per row of the opcode map (30_encoding.md R97). -/

namespace Sys2Proof

/-- An instruction with the fields of 30_encoding.md R91 that its row names. -/
inductive Instr where
  /-- `00E0` CLS (44_display.md R262). -/
  | cls
  /-- `00EE` RET (41_control_flow.md R133). -/
  | ret
  /-- `0nnn` SYS nnn, a row whose effect is the fault UnknownOpcode (30_encoding.md R100). -/
  | sys (nnn : Addr)
  /-- `1nnn` JP nnn (R131). -/
  | jp (nnn : Addr)
  /-- `2nnn` CALL nnn (R132). -/
  | call (nnn : Addr)
  /-- `3xkk` SE Vx, kk (R135). -/
  | seImm (x : Reg) (kk : Byte)
  /-- `4xkk` SNE Vx, kk (R136). -/
  | sneImm (x : Reg) (kk : Byte)
  /-- `5xy0` SE Vx, Vy (R137). -/
  | seReg (x y : Reg)
  /-- `6xkk` LD Vx, kk (42_register_alu.md R170). -/
  | ldImm (x : Reg) (kk : Byte)
  /-- `7xkk` ADD Vx, kk (R171). -/
  | addImm (x : Reg) (kk : Byte)
  /-- `8xy0` LD Vx, Vy (R172). -/
  | ldReg (x y : Reg)
  /-- `8xy1` OR Vx, Vy (R173). -/
  | orReg (x y : Reg)
  /-- `8xy2` AND Vx, Vy (R174). -/
  | andReg (x y : Reg)
  /-- `8xy3` XOR Vx, Vy (R175). -/
  | xorReg (x y : Reg)
  /-- `8xy4` ADD Vx, Vy (R176). -/
  | addReg (x y : Reg)
  /-- `8xy5` SUB Vx, Vy (R177). -/
  | subReg (x y : Reg)
  /-- `8xy6` SHR Vx, Vy (R178). -/
  | shr (x y : Reg)
  /-- `8xy7` SUBN Vx, Vy (R179). -/
  | subn (x y : Reg)
  /-- `8xyE` SHL Vx, Vy (R180). -/
  | shl (x y : Reg)
  /-- `9xy0` SNE Vx, Vy (41_control_flow.md R138). -/
  | sneReg (x y : Reg)
  /-- `Annn` LD I, nnn (43_index_memory.md R220). -/
  | ldI (nnn : Addr)
  /-- `Bnnn` JP V0, nnn (41_control_flow.md R134). -/
  | jpV0 (nnn : Addr)
  /-- `Cxkk` RND Vx, kk (42_register_alu.md R181). -/
  | rnd (x : Reg) (kk : Byte)
  /-- `Dxyn` DRW Vx, Vy, n (44_display.md R263). -/
  | drw (x y : Reg) (n : Nibble)
  /-- `Ex9E` SKP Vx (41_control_flow.md R139). -/
  | skp (x : Reg)
  /-- `ExA1` SKNP Vx (R140). -/
  | sknp (x : Reg)
  /-- `Fx07` LD Vx, DT (45_timers_keypad.md R290). -/
  | ldVxDt (x : Reg)
  /-- `Fx0A` LD Vx, K (R293). -/
  | ldVxK (x : Reg)
  /-- `Fx15` LD DT, Vx (R291). -/
  | ldDtVx (x : Reg)
  /-- `Fx18` LD ST, Vx (R292). -/
  | ldStVx (x : Reg)
  /-- `Fx1E` ADD I, Vx (43_index_memory.md R221). -/
  | addI (x : Reg)
  /-- `Fx29` LD F, Vx (R222). -/
  | ldF (x : Reg)
  /-- `Fx33` LD B, Vx (R223). -/
  | ldB (x : Reg)
  /-- `Fx55` LD [I], Vx (R224). -/
  | storeRegs (x : Reg)
  /-- `Fx65` LD Vx, [I] (R225). -/
  | loadRegs (x : Reg)
  deriving DecidableEq, Repr

end Sys2Proof
end

