-- ==== Sys2Proof/WellFormed.lean ====
section
/-! DEFINITION. Which instructions have a word of their own under an opcode set. -/

namespace Sys2Proof

/-- The 13 rows marked BASELINE in 30_encoding.md R97. -/
def Instr.inBaseline : Instr → Bool
  | .cls => true
  | .ret => false
  | .sys _ => false
  | .jp _ => true
  | .call _ => false
  | .seImm _ _ => true
  | .sneImm _ _ => true
  | .seReg _ _ => false
  | .ldImm _ _ => true
  | .addImm _ _ => true
  | .ldReg _ _ => false
  | .orReg _ _ => false
  | .andReg _ _ => false
  | .xorReg _ _ => false
  | .addReg _ _ => true
  | .subReg _ _ => false
  | .shr _ _ => false
  | .subn _ _ => false
  | .shl _ _ => false
  | .sneReg _ _ => false
  | .ldI _ => true
  | .jpV0 _ => false
  | .rnd _ _ => false
  | .drw _ _ _ => true
  | .skp _ => false
  | .sknp _ => false
  | .ldVxDt _ => true
  | .ldVxK _ => true
  | .ldDtVx _ => true
  | .ldStVx _ => true
  | .addI _ => false
  | .ldF _ => false
  | .ldB _ => false
  | .storeRegs _ => false
  | .loadRegs _ => false

/-- The row of `i` is active under `o` (30_encoding.md R98). -/
def Instr.activeIn (o : OpSet) (i : Instr) : Bool :=
  match o with
  | .baseline => i.inBaseline
  | .full => true

/-- No more specific row takes the word of `i`: only `0nnn` has such words, 0x00E0 and 0x00EE (30_encoding.md R96, R100). -/
def Instr.notShadowed : Instr → Bool
  | .sys nnn => nnn != 0x0E0#12 && nnn != 0x0EE#12
  | _ => true

/-- `i` has a word under `o`: its row is active and no more specific row takes that word. -/
def Instr.wellFormed (o : OpSet) (i : Instr) : Bool :=
  i.activeIn o && i.notShadowed

end Sys2Proof
end

