-- ==== Sys2Proof/Decode.lean ====
section
/-! DEFINITION. The decoder of 30_encoding.md R91, R96 to R99, over the opcode map of R97, and the encoder written
from the formats of R92. -/

namespace Sys2Proof

/-! ## Fields (R91) -/

/-- `nnn = op[11:0]`. -/
def fieldNnn (op : Word) : Addr := op.extractLsb' 0 12

/-- `x = op[11:8]`. -/
def fieldX (op : Word) : Reg := op.extractLsb' 8 4

/-- `y = op[7:4]`. -/
def fieldY (op : Word) : Reg := op.extractLsb' 4 4

/-- `kk = op[7:0]`. -/
def fieldKk (op : Word) : Byte := op.extractLsb' 0 8

/-- `n = op[3:0]`. -/
def fieldN (op : Word) : Nibble := op.extractLsb' 0 4

/-! ## The opcode map (R97) -/

/-- One row of the map: `op &&& mask = val` selects it; `inBaseline` says whether it is one of the 13 BASELINE rows. -/
structure OpRow where
  mask : Word
  val : Word
  inBaseline : Bool
  build : Word → Instr

/-- The rows of R97, in the table's order. -/
def opRows : List OpRow :=
  [⟨0xFFFF#16, 0x00E0#16, true, fun _ => .cls⟩,
   ⟨0xFFFF#16, 0x00EE#16, false, fun _ => .ret⟩,
   ⟨0xF000#16, 0x0000#16, false, fun op => .sys (fieldNnn op)⟩,
   ⟨0xF000#16, 0x1000#16, true, fun op => .jp (fieldNnn op)⟩,
   ⟨0xF000#16, 0x2000#16, false, fun op => .call (fieldNnn op)⟩,
   ⟨0xF000#16, 0x3000#16, true, fun op => .seImm (fieldX op) (fieldKk op)⟩,
   ⟨0xF000#16, 0x4000#16, true, fun op => .sneImm (fieldX op) (fieldKk op)⟩,
   ⟨0xF00F#16, 0x5000#16, false, fun op => .seReg (fieldX op) (fieldY op)⟩,
   ⟨0xF000#16, 0x6000#16, true, fun op => .ldImm (fieldX op) (fieldKk op)⟩,
   ⟨0xF000#16, 0x7000#16, true, fun op => .addImm (fieldX op) (fieldKk op)⟩] ++
  [⟨0xF00F#16, 0x8000#16, false, fun op => .ldReg (fieldX op) (fieldY op)⟩,
   ⟨0xF00F#16, 0x8001#16, false, fun op => .orReg (fieldX op) (fieldY op)⟩,
   ⟨0xF00F#16, 0x8002#16, false, fun op => .andReg (fieldX op) (fieldY op)⟩,
   ⟨0xF00F#16, 0x8003#16, false, fun op => .xorReg (fieldX op) (fieldY op)⟩,
   ⟨0xF00F#16, 0x8004#16, true, fun op => .addReg (fieldX op) (fieldY op)⟩,
   ⟨0xF00F#16, 0x8005#16, false, fun op => .subReg (fieldX op) (fieldY op)⟩,
   ⟨0xF00F#16, 0x8006#16, false, fun op => .shr (fieldX op) (fieldY op)⟩,
   ⟨0xF00F#16, 0x8007#16, false, fun op => .subn (fieldX op) (fieldY op)⟩,
   ⟨0xF00F#16, 0x800E#16, false, fun op => .shl (fieldX op) (fieldY op)⟩,
   ⟨0xF00F#16, 0x9000#16, false, fun op => .sneReg (fieldX op) (fieldY op)⟩,
   ⟨0xF000#16, 0xA000#16, true, fun op => .ldI (fieldNnn op)⟩,
   ⟨0xF000#16, 0xB000#16, false, fun op => .jpV0 (fieldNnn op)⟩] ++
  [⟨0xF000#16, 0xC000#16, false, fun op => .rnd (fieldX op) (fieldKk op)⟩,
   ⟨0xF000#16, 0xD000#16, true, fun op => .drw (fieldX op) (fieldY op) (fieldN op)⟩,
   ⟨0xF0FF#16, 0xE09E#16, false, fun op => .skp (fieldX op)⟩,
   ⟨0xF0FF#16, 0xE0A1#16, false, fun op => .sknp (fieldX op)⟩,
   ⟨0xF0FF#16, 0xF007#16, true, fun op => .ldVxDt (fieldX op)⟩,
   ⟨0xF0FF#16, 0xF00A#16, true, fun op => .ldVxK (fieldX op)⟩,
   ⟨0xF0FF#16, 0xF015#16, true, fun op => .ldDtVx (fieldX op)⟩,
   ⟨0xF0FF#16, 0xF018#16, true, fun op => .ldStVx (fieldX op)⟩,
   ⟨0xF0FF#16, 0xF01E#16, false, fun op => .addI (fieldX op)⟩,
   ⟨0xF0FF#16, 0xF029#16, false, fun op => .ldF (fieldX op)⟩,
   ⟨0xF0FF#16, 0xF033#16, false, fun op => .ldB (fieldX op)⟩,
   ⟨0xF0FF#16, 0xF055#16, false, fun op => .storeRegs (fieldX op)⟩,
   ⟨0xF0FF#16, 0xF065#16, false, fun op => .loadRegs (fieldX op)⟩]

/-- The row is active under `o` (R98). -/
def rowActive (o : OpSet) (r : OpRow) : Bool :=
  match o with
  | .baseline => r.inBaseline
  | .full => true

/-- The row's pattern matches `op`. -/
def rowMatches (op : Word) (r : OpRow) : Bool :=
  (op &&& r.mask) == r.val

/-- The masks, the most specific first (R96). -/
def maskOrder : List Word := [0xFFFF#16, 0xF0FF#16, 0xF00F#16, 0xF000#16]

/-- `decode(op)` of R96: the first active row, by mask order, that matches; `none` is the spec's UNKNOWN. -/
def decode (o : OpSet) (op : Word) : Option Instr :=
  (maskOrder.findSome? fun m =>
    opRows.find? fun r => r.mask == m && rowActive o r && rowMatches op r).map fun r => r.build op

/-! ## Bytes -/

/-- Why a byte sequence is no instruction. -/
inductive DecodeError where
  /-- Fewer than the two bytes of an opcode (R90). -/
  | tooShort
  /-- No active row matches, the fault UnknownOpcode when executed (R99). -/
  | unknownOpcode (op : Word)
  deriving DecidableEq, Repr

/-- The opcode of two consecutive bytes, big-endian: `b0 * 256 + b1` (20_memory.md R66). -/
def wordOfBytes (b0 b1 : Byte) : Word := b0 ++ b1

/-- The two bytes of a word in the order of their addresses, big-endian (20_memory.md R66). -/
def bytesOfWord (op : Word) : List Byte := [op.extractLsb' 8 8, op.extractLsb' 0 8]

/-- Decodes the instruction at the head of a byte sequence and answers it with the bytes after it; total. -/
def decodeBytes (o : OpSet) : List Byte → Except DecodeError (Instr × List Byte)
  | b0 :: b1 :: rest =>
    match decode o (wordOfBytes b0 b1) with
    | some i => .ok (i, rest)
    | none => .error (.unknownOpcode (wordOfBytes b0 b1))
  | _ => .error .tooShort

/-- The bytes of a table word of `nbits` bits as memory stores them; every bit above `nbits` is 0. -/
def bytesOfTableWord (nbits w : Nat) : List Byte := bytesOfWord (BitVec.ofNat 16 (w % 2 ^ nbits))

/-- The instruction the decoder reads from a table word, under the default `OPSET = FULL`. -/
def decodeTableWord (nbits w : Nat) : Option Instr :=
  match decodeBytes .full (bytesOfTableWord nbits w) with
  | .ok (i, _) => some i
  | .error _ => none

/-! ## The encoder (R92) -/

/-- Format `Annn`. -/
def encAnnn (major : Nibble) (nnn : Addr) : Word := major ++ nnn

/-- Format `Axkk`, and format `Axss` with the sub-opcode byte for `kk`. -/
def encAxkk (major : Nibble) (x : Reg) (kk : Byte) : Word := major ++ (x ++ kk)

/-- Format `Axyn`. -/
def encAxyn (major : Nibble) (x y : Reg) (n : Nibble) : Word := major ++ (x ++ (y ++ n))

/-- The word of an instruction, from the formats of R92 and the constants of R97. -/
def encode : Instr → Word
  | .cls => 0x00E0#16
  | .ret => 0x00EE#16
  | .sys nnn => encAnnn 0x0#4 nnn
  | .jp nnn => encAnnn 0x1#4 nnn
  | .call nnn => encAnnn 0x2#4 nnn
  | .seImm x kk => encAxkk 0x3#4 x kk
  | .sneImm x kk => encAxkk 0x4#4 x kk
  | .seReg x y => encAxyn 0x5#4 x y 0x0#4
  | .ldImm x kk => encAxkk 0x6#4 x kk
  | .addImm x kk => encAxkk 0x7#4 x kk
  | .ldReg x y => encAxyn 0x8#4 x y 0x0#4
  | .orReg x y => encAxyn 0x8#4 x y 0x1#4
  | .andReg x y => encAxyn 0x8#4 x y 0x2#4
  | .xorReg x y => encAxyn 0x8#4 x y 0x3#4
  | .addReg x y => encAxyn 0x8#4 x y 0x4#4
  | .subReg x y => encAxyn 0x8#4 x y 0x5#4
  | .shr x y => encAxyn 0x8#4 x y 0x6#4
  | .subn x y => encAxyn 0x8#4 x y 0x7#4
  | .shl x y => encAxyn 0x8#4 x y 0xE#4
  | .sneReg x y => encAxyn 0x9#4 x y 0x0#4
  | .ldI nnn => encAnnn 0xA#4 nnn
  | .jpV0 nnn => encAnnn 0xB#4 nnn
  | .rnd x kk => encAxkk 0xC#4 x kk
  | .drw x y n => encAxyn 0xD#4 x y n
  | .skp x => encAxkk 0xE#4 x 0x9E#8
  | .sknp x => encAxkk 0xE#4 x 0xA1#8
  | .ldVxDt x => encAxkk 0xF#4 x 0x07#8
  | .ldVxK x => encAxkk 0xF#4 x 0x0A#8
  | .ldDtVx x => encAxkk 0xF#4 x 0x15#8
  | .ldStVx x => encAxkk 0xF#4 x 0x18#8
  | .addI x => encAxkk 0xF#4 x 0x1E#8
  | .ldF x => encAxkk 0xF#4 x 0x29#8
  | .ldB x => encAxkk 0xF#4 x 0x33#8
  | .storeRegs x => encAxkk 0xF#4 x 0x55#8
  | .loadRegs x => encAxkk 0xF#4 x 0x65#8

/-- The bytes of an instruction as memory stores them. -/
def encodeBytes (i : Instr) : List Byte := bytesOfWord (encode i)

end Sys2Proof
end

