-- ==== Sys2Proof/Machine/State.lean ====
section
/-! DEFINITION. The state vector of 10_state.md R20 as plain data, the model's own fields beside it, and reset (R36). -/

namespace Sys2Proof.Machine

/-- The fault kinds of 60_exceptions.md R320. -/
inductive FaultKind where
  /-- Code 1: a fetch with `PC > 0xFFE`, or the run of Dxyn, Fx33, Fx55, Fx65 past the end of memory (R321). -/
  | outOfBounds
  /-- Code 2: raised by no step (R322, 10_state.md R24). -/
  | registerIndexOutOfBounds
  /-- Code 3: raised by no step (R323, 10_state.md R25). -/
  | invalidByteValue
  /-- Code 4: no active row matches, or `0nnn` (R324). -/
  | unknownOpcode
  /-- Code 5: 2nnn on a full stack (R325). -/
  | stackOverflow
  /-- Code 6: 00EE on an empty stack (R325). -/
  | stackUnderflow
  deriving DecidableEq, Repr

/-- The `detail` of a fault record (10_state.md R32). -/
inductive FaultDetail where
  /-- Empty. -/
  | none
  /-- The rejected access `(addr, len)`, for OutOfBounds. -/
  | access (addr len : Nat)
  /-- `SP`, for the stack faults. -/
  | stackPointer (sp : Nat)
  deriving DecidableEq, Repr

/-- The fault record `{kind, pc, opcode, detail}` of 10_state.md R32. -/
structure FaultRecord where
  kind : FaultKind
  /-- The address the faulting CPU step fetched from. -/
  pc : Word
  /-- The opcode, or `none` for a fetch fault. -/
  opcode : Option Word
  detail : FaultDetail
  deriving DecidableEq, Repr

/-- `status` (10_state.md R32). -/
inductive Status where
  | running
  | faulted (record : FaultRecord)
  deriving DecidableEq, Repr

/-- The inputs of one CPU step (60_exceptions.md R340). -/
structure CpuInput where
  /-- `none`, or a key code; read only by Fx0A. -/
  keyEvent : Option Nibble
  /-- Bit k is 1 when key k is held; read only by Ex9E and ExA1. -/
  keysDown : BitVec 16
  /-- Read only by Cxkk. -/
  rand : Byte
  deriving DecidableEq, Repr

/-- One atomic step of one agent (00_scope.md R3, 60_exceptions.md R341). -/
inductive Event where
  /-- A CPU step with its inputs. -/
  | cpu (input : CpuInput)
  /-- `dt_tick` (R335). -/
  | dtTick
  /-- `st_tick` (R335). -/
  | stTick
  /-- `host_load(addr, bytes)` (70_reset_and_hazards.md R372). -/
  | hostLoad (addr : Nat) (bytes : List Byte)
  /-- The host's `reset` (70_reset_and_hazards.md R370). -/
  | hostReset
  /-- The host's stop (60_exceptions.md R344). -/
  | hostStop
  deriving DecidableEq, Repr

/-- What a step puts out beside the state (30_encoding.md R105, 60_exceptions.md R334, R339): the model's own port, log 6. -/
inductive StepOutput where
  /-- No step since the reset. -/
  | none
  /-- A CPU step ran its instruction to its end. -/
  | completed
  /-- A CPU step found no key in Fx0A (30_encoding.md R107). -/
  | waiting
  /-- A CPU step raised a fault (R106). -/
  | faulted
  /-- A timer tick, with the beep pulse or without (60_exceptions.md R334). -/
  | ticked (beep : Bool)
  /-- A host load was made. -/
  | loaded
  /-- A host load did not fit: `OutOfBounds` goes to the host (70_reset_and_hazards.md R372). -/
  | loadRejected (addr len : Nat)
  /-- A host stop ended the run (60_exceptions.md R344). -/
  | stopped
  deriving DecidableEq, Repr

/-- Memory: the bytes that differ from what an unlisted address reads as, by strictly rising address. -/
abbrev Memory := List Host.Cell

/-- The display: row `y` is a 64-bit word whose bit `x` is the pixel of column `x` (10_state.md R29, log 18). -/
abbrev Display := Vector (BitVec 64) 32

/-- The registers V0 to VF (10_state.md R21). -/
abbrev RegFile := Vector Byte 16

/-- The state. The first ten fields are the state vector of 10_state.md R20; the last six are the model's own. -/
structure State where
  /-- `V[0..15]` (R21). -/
  v : RegFile
  /-- `I` (R26). -/
  i : Word
  /-- `PC`: the next fetch address between steps, the fetch address plus 2 in the execute stage (R27). -/
  pc : Word
  /-- `MEM` (R28). -/
  mem : Memory
  /-- `DISP` (R29). -/
  disp : Display
  /-- `DT` (R30). -/
  dt : Byte
  /-- `ST` (R30). -/
  st : Byte
  /-- `SP`, the number of stack entries in use (R31). -/
  sp : Nat
  /-- `STACK` (R31). -/
  stack : List Word
  /-- `status` (R32). -/
  status : Status
  /-- The parameters of 00_scope.md R6 (log 1). -/
  params : Params
  /-- The steps that come next, first to last (log 3). -/
  schedule : List Event
  /-- The inputs of the CPU step being run (log 5). -/
  input : CpuInput
  /-- How many CPU steps have drawn free inputs (log 4). -/
  draws : Nat
  /-- No CPU step has been made since the reset: the host may load (70_reset_and_hazards.md R372, log 7). -/
  loadOpen : Bool
  /-- What the last step put out (log 6). -/
  out : StepOutput
  deriving DecidableEq, Repr

/-- Why the machine stops. -/
inductive Fault where
  /-- Answered by `step` when a CPU step, a timer tick or a host stop is asked of a block whose `status` is `FAULTED`:
  none of them is enabled there (60_exceptions.md R330, 70_reset_and_hazards.md R380). Safe: the spec's own end of a run. -/
  | halted (record : FaultRecord)
  deriving DecidableEq, Repr

/-- Why a step has no meaning. -/
inductive Refusal where
  /-- Answered by `exec` for an instruction that has no meaning yet: none is left. Safe. -/
  | notModelled (mnemonic : String)
  /-- Answered by `step` for a host load after the first CPU step since the reset: `host_load` is not enabled there
  (70_reset_and_hazards.md R372, 93_implementation_defined.md U20). Safe: the model lacks that move. -/
  | hostLoadDuringRun (addr len : Nat)
  deriving DecidableEq, Repr

/-- The state right after a reset of a block with the parameters `p` (R36, 70_reset_and_hazards.md R370). -/
def State.resetWith (p : Params) : State where
  v := Vector.replicate 16 0#8
  i := 0#16
  pc := Config.programOrigin
  mem := []
  disp := Vector.replicate 32 0#64
  dt := 0#8
  st := 0#8
  sp := 0
  stack := List.replicate p.stackDepth 0#16
  status := .running
  params := p
  schedule := []
  input := { keyEvent := none, keysDown := 0#16, rand := 0#8 }
  draws := 0
  loadOpen := true
  out := .none

/-- The machine right after reset, with the default parameters of 00_scope.md R6. -/
def State.reset : State := State.resetWith Params.default

end Sys2Proof.Machine
end

