-- ==== Sys2Proof/Machine/Ops.lean ====
section
/-! DEFINITION. The named operations: memory (20_memory.md), registers, pixels, the stack, fault entry (60_exceptions.md
R329), and reset, the only way out of a fault (R330). -/

namespace Sys2Proof.Machine

/-! ## Memory (20_memory.md R61 to R64) -/

/-- What an unlisted address reads as: memory is zero at reset (10_state.md R36). -/
def memAbsent : Byte := 0#8

/-- The byte at an address. -/
def memByte : Memory → Nat → Byte
  | [], _ => memAbsent
  | (c, b) :: m, a => if a = c then b else memByte m a

/-- Stores one byte, keeping the canonical form. -/
def memPut : Memory → Nat → Byte → Memory
  | [], a, b => if b = memAbsent then [] else [(a, b)]
  | (c, b') :: m, a, b =>
    if a < c then (if b = memAbsent then (c, b') :: m else (a, b) :: (c, b') :: m)
    else if a = c then (if b = memAbsent then m else (a, b) :: m)
    else (c, b') :: memPut m a b

/-- Stores consecutive bytes from an address on. -/
def memPutRun (m : Memory) (addr : Nat) : List Byte → Memory
  | [] => m
  | b :: bs => memPutRun (memPut m addr b) (addr + 1) bs

/-- The canonical form: addresses strictly rising and inside memory, no entry equal to what an unlisted address reads as. -/
def Memory.wf (m : Memory) : Bool :=
  decide (m.Pairwise fun c d => c.1 < d.1) && m.all fun c => decide (c.1 < Config.memSize) && c.2 != memAbsent

/-- `read_byte` (R61); `none` is `OutOfBounds`. -/
def readByte (m : Memory) (addr : Nat) : Option Byte :=
  if addr < Config.memSize then some (memByte m addr) else none

/-- `write_byte` (R62); `none` is `OutOfBounds`. -/
def writeByte (m : Memory) (addr : Nat) (b : Byte) : Option Memory :=
  if addr < Config.memSize then some (memPut m addr b) else none

/-- `MemRead` (R63); `none` is `OutOfBounds`. -/
def memRead (m : Memory) (addr n : Nat) : Option (List Byte) :=
  if addr + n > Config.memSize then none
  else some ((List.range n).map fun k => memByte m (addr + k))

/-- `MemWrite` (R64), all or nothing; `none` is `OutOfBounds`. -/
def memWrite (m : Memory) (addr : Nat) (bs : List Byte) : Option Memory :=
  if addr + bs.length > Config.memSize then none
  else some (memPutRun m addr bs)

/-! ## Registers (10_state.md R21 to R27) -/

/-- `get_v`. -/
def State.getV (s : State) (r : Reg) : Byte := s.v[r.toNat]

/-- `set_v`. -/
def State.setV (s : State) (r : Reg) (b : Byte) : State := { s with v := s.v.set r.toNat b }

/-- The number of VF. -/
abbrev vf : Reg := 0xF#4

/-- Writes the registers from number `k` on with the listed bytes, in order (43_index_memory.md R225). -/
def regsPutRun (v : RegFile) (k : Nat) : List Byte → RegFile
  | [] => v
  | b :: bs => regsPutRun (v.setIfInBounds k b) (k + 1) bs

/-- The bytes `V[0], ..., V[x]` (43_index_memory.md R224). -/
def State.regsUpTo (s : State) (x : Reg) : List Byte := s.v.toList.take (x.toNat + 1)

/-- Writes `I`, narrowed to 12 bits (10_state.md R26). -/
def State.setI (s : State) (a : Word) : State := { s with i := a &&& 0xFFF#16 }

/-- `pc <- target`. -/
def State.setPc (s : State) (target : Word) : State := { s with pc := target }

/-- `skip` (41_control_flow.md R130) when the condition holds. -/
def State.skipIf (s : State) (c : Bool) : State := if c then s.setPc (s.pc + 2#16) else s

/-! ## Display (10_state.md R29, 44_display.md R260, R261) -/

/-- `DISP[y][x]`. -/
def pixel (d : Display) (y : Fin 32) (x : Fin 64) : Bool := d[y.val].getLsbD x.val

/-- `DISP[y][x] <- DISP[y][x] ^ 1`. -/
def pixelFlip (d : Display) (y : Fin 32) (x : Fin 64) : Display :=
  d.set y.val (d[y.val] ^^^ BitVec.twoPow 64 x.val)

/-- `clear()`. -/
def displayClear : Display := Vector.replicate 32 0#64

/-- The target column of a sprite column: `(ox + c) mod 64` (R261). -/
def targetX (ox c : Nat) : Fin 64 := Fin.ofNat 64 (ox + c)

/-- The target row of a sprite row: `(oy + r) mod 32` (R261). -/
def targetY (oy r : Nat) : Fin 32 := Fin.ofNat 32 (oy + r)

/-- The sprite bit of column `c` of a row byte; bit 7 is the leftmost pixel (R261). -/
def spriteBit (row : Byte) (c : Nat) : Bool := row.getLsbD (7 - c)

/-- One sprite bit: what is drawn so far and whether a collision has occurred (R261). -/
def drawBit (row : Byte) (ox : Nat) (ty : Fin 32) (acc : Display × Bool) (c : Nat) : Display × Bool :=
  if spriteBit row c then
    (pixelFlip acc.1 ty (targetX ox c), acc.2 || pixel acc.1 ty (targetX ox c))
  else acc

/-- One sprite row: columns 0 to 7. -/
def drawRow (row : Byte) (ox : Nat) (ty : Fin 32) (acc : Display × Bool) : Display × Bool :=
  [0, 1, 2, 3, 4, 5, 6, 7].foldl (drawBit row ox ty) acc

/-- The sprite rows from row number `r` on. -/
def drawRows (ox oy : Nat) : List Byte → Nat → Display × Bool → Display × Bool
  | [], _, acc => acc
  | row :: rows, r, acc => drawRows ox oy rows (r + 1) (drawRow row ox (targetY oy r) acc)

/-- `draw_sprite(rows, ox, oy)`: the new display and the collision (R261). -/
def drawSprite (d : Display) (rows : List Byte) (ox oy : Nat) : Display × Bool :=
  drawRows ox oy rows 0 (d, false)

/-- `snapshot()`: the grid the host reads between steps, row by row (44_display.md R265). -/
def snapshot (s : State) : List (List Bool) :=
  (List.finRange 32).map fun y => (List.finRange 64).map fun x => pixel s.disp y x

/-! ## Stack (10_state.md R31) -/

/-- `STACK[k]`. -/
def stackEntry (stack : List Word) (k : Nat) : Word := stack.getD k 0#16

/-- `STACK[SP] <- a` and `SP <- SP + 1`. -/
def State.push (s : State) (a : Word) : State := { s with stack := s.stack.set s.sp a, sp := s.sp + 1 }

/-- `SP <- SP - 1`; the entry stays in `STACK` (41_control_flow.md R133). -/
def State.pop (s : State) : State := { s with sp := s.sp - 1 }

/-! ## Faults (60_exceptions.md R320, R329, 30_encoding.md R106) -/

/-- The numeric code of a fault kind (R320, decision D28). -/
def faultCode : FaultKind → Nat
  | .outOfBounds => 1
  | .registerIndexOutOfBounds => 2
  | .invalidByteValue => 3
  | .unknownOpcode => 4
  | .stackOverflow => 5
  | .stackUnderflow => 6

/-- Fault entry: `status <- FAULTED(rec)` and nothing else of the state vector (R329). -/
def State.takeFault (s : State) (r : FaultRecord) : State := { s with status := .faulted r, out := .faulted }

/-- The address the running CPU step fetched from: in the execute stage `PC` is that address plus 2 (30_encoding.md R95). -/
def State.fetchAddr (s : State) : Word := s.pc - 2#16

/-- `raise Fault(kind, detail)` in the execute stage of an instruction: every other write is discarded (30_encoding.md R106). -/
def raiseIn (i : Instr) (k : FaultKind) (d : FaultDetail) (s : State) : State :=
  s.takeFault { kind := k, pc := s.fetchAddr, opcode := some (encode i), detail := d }

/-- `wait`: the step's outcome is WAITING and `PC` is back at the instruction (30_encoding.md R107). -/
def State.wait (s : State) : State := { s with pc := s.fetchAddr, out := .waiting }

/-- The reset of the block, enabled in every state, and the only way out of `FAULTED` (70_reset_and_hazards.md R370,
60_exceptions.md R330). The parameters, the schedule and the draws belong to the environment and stay. -/
def State.resetBlock (s : State) : State :=
  { State.resetWith s.params with schedule := s.schedule, draws := s.draws }

end Sys2Proof.Machine
end

