-- ==== Sys2Proof/Machine/Operands.lean ====
section
/-! DEFINITION. The operand forms: how an instruction finds its operands (30_encoding.md R93). -/

namespace Sys2Proof.Machine

/-- The byte that 8xy6 and 8xyE shift: `V[y]`, or `V[x]` without `Q_SHIFT_FROM_VY` (42_register_alu.md R178, R180). -/
def shiftSource (x y : Reg) (s : State) : Byte :=
  if s.params.qShiftFromVy then s.getV y else s.getV x

/-- The register that Bnnn adds: V0, or with `Q_JUMP_VX` the one named by `nnn[11:8]` (41_control_flow.md R134). -/
def jumpReg (nnn : Addr) (s : State) : Reg :=
  if s.params.qJumpVx then nnn.extractLsb' 8 4 else 0x0#4

/-- The target of Bnnn, not masked (R134). -/
def indexedTarget (nnn : Addr) (s : State) : Word :=
  nnn.setWidth 16 + (s.getV (jumpReg nnn s)).setWidth 16

/-- The low nibble of `V[x]`: a key or a digit (41_control_flow.md R139, 43_index_memory.md R222). -/
def lowNibble (x : Reg) (s : State) : Nibble := (s.getV x).extractLsb' 0 4

/-- The key that `V[x]` selects is held: `input.keys_down[V[x] & 0xF]` (41_control_flow.md R139, R140). -/
def keyHeld (x : Reg) (s : State) : Bool := s.input.keysDown.getLsbD (lowNibble x s).toNat

/-- The effective address of byte 0 of a data access, without narrowing (43_index_memory.md R226). -/
def dataAddr (s : State) : Nat := s.i.toNat

/-- The address of the glyph that `V[x]` selects, before the narrowing of the write to `I` (43_index_memory.md R222). -/
def glyphAddr (x : Reg) (s : State) : Word :=
  s.params.fontBase.setWidth 16 + 5#16 * (lowNibble x s).setWidth 16

/-- The decimal digits of a byte: hundreds, tens, units (43_index_memory.md R223). -/
def decimalDigits (b : Byte) : List Byte :=
  [BitVec.ofNat 8 (b.toNat / 100), BitVec.ofNat 8 (b.toNat / 10 % 10), BitVec.ofNat 8 (b.toNat % 10)]

/-- The step of `I` that ends Fx55 and Fx65: `I <- (I + x + 1) & 0xFFF` under `Q_LOADSTORE_INC_I` (43_index_memory.md
R224, R225). -/
def State.advanceI (s : State) (x : Reg) : State :=
  if s.params.qLoadstoreIncI then s.setI (s.i + x.setWidth 16 + 1#16) else s

end Sys2Proof.Machine
end

