-- ==== Sys2Proof/Machine/Flags.lean ====
section
/-! DEFINITION. The flag computations, and the order of a result and its flag (42_register_alu.md R182, R183). -/

namespace Sys2Proof.Machine

/-- The flag byte of a condition: 1 or 0. -/
def flagByte (c : Bool) : Byte := if c then 1#8 else 0#8

/-- The exact sum of two registers, reduced mod 256 (R176). -/
def sumByte (a b : Byte) : Byte := BitVec.ofNat 8 ((a.toNat + b.toNat) % 256)

/-- The carry of the exact sum: `sum > 255` (R176). -/
def carryOf (a b : Byte) : Bool := decide (a.toNat + b.toNat > 255)

/-- The exact difference of two registers, reduced mod 256 (R177, R179). -/
def diffByte (a b : Byte) : Byte := BitVec.ofInt 8 (((a.toNat : Int) - (b.toNat : Int)) % 256)

/-- No borrow: `a >= b` (R177, R179). -/
def noBorrowOf (a b : Byte) : Bool := decide (b.toNat ≤ a.toNat)

/-- Bit 0, the bit a right shift moves out: `src & 1` (R178). -/
def lowBit (a : Byte) : Byte := a &&& 1#8

/-- Bit 7, the bit a left shift moves out: `src >> 7` (R180). -/
def highBit (a : Byte) : Byte := a >>> 7

/-- The result to `V[x]` first, then the flag to VF: when x = F the flag remains (R183). -/
def State.setResultFlag (s : State) (x : Reg) (result flag : Byte) : State :=
  (s.setV x result).setV vf flag

/-- The result of a logic operation to `V[x]`, then VF to 0 under `Q_LOGIC_CLEARS_VF` (R173 to R175). -/
def State.setLogicResult (s : State) (x : Reg) (result : Byte) : State :=
  if s.params.qLogicClearsVf then s.setResultFlag x result 0#8 else s.setV x result

end Sys2Proof.Machine
end

