-- ==== Sys2Proof/Machine/ControlFlow.lean ====
section
/-! DEFINITION. Jumps, calls, returns and skips (41_control_flow.md), and 0nnn (30_encoding.md R100). Every meaning runs in
the execute stage: `PC` already holds the fetch address plus 2 (30_encoding.md R95). -/

namespace Sys2Proof.Machine

/-- `0nnn` SYS (30_encoding.md R100): raises UnknownOpcode with its own word, as the spec says. -/
def execSys (nnn : Addr) (s : State) : Host.Outcome State Fault Refusal :=
  .next (raiseIn (.sys nnn) .unknownOpcode .none s)

/-- `1nnn` JP nnn (R131). -/
def execJp (nnn : Addr) (s : State) : Host.Outcome State Fault Refusal :=
  .next (s.setPc (nnn.setWidth 16))

/-- `2nnn` CALL nnn (R132). -/
def execCall (nnn : Addr) (s : State) : Host.Outcome State Fault Refusal :=
  if s.sp = s.params.stackDepth then .next (raiseIn (.call nnn) .stackOverflow (.stackPointer s.sp) s)
  else .next ((s.push s.pc).setPc (nnn.setWidth 16))

/-- `00EE` RET (R133). -/
def execRet (s : State) : Host.Outcome State Fault Refusal :=
  if s.sp = 0 then .next (raiseIn .ret .stackUnderflow (.stackPointer s.sp) s)
  else .next (s.pop.setPc (stackEntry s.stack s.pop.sp))

/-- `Bnnn` JP V0, nnn (R134). -/
def execJpV0 (nnn : Addr) (s : State) : Host.Outcome State Fault Refusal :=
  .next (s.setPc (indexedTarget nnn s))

/-- `3xkk` SE Vx, kk (R135). -/
def execSeImm (x : Reg) (kk : Byte) (s : State) : Host.Outcome State Fault Refusal :=
  .next (s.skipIf (s.getV x == kk))

/-- `4xkk` SNE Vx, kk (R136). -/
def execSneImm (x : Reg) (kk : Byte) (s : State) : Host.Outcome State Fault Refusal :=
  .next (s.skipIf (s.getV x != kk))

/-- `5xy0` SE Vx, Vy (R137). -/
def execSeReg (x y : Reg) (s : State) : Host.Outcome State Fault Refusal :=
  .next (s.skipIf (s.getV x == s.getV y))

/-- `9xy0` SNE Vx, Vy (R138). -/
def execSneReg (x y : Reg) (s : State) : Host.Outcome State Fault Refusal :=
  .next (s.skipIf (s.getV x != s.getV y))

/-- `Ex9E` SKP Vx (R139). -/
def execSkp (x : Reg) (s : State) : Host.Outcome State Fault Refusal :=
  .next (s.skipIf (keyHeld x s))

/-- `ExA1` SKNP Vx (R140). -/
def execSknp (x : Reg) (s : State) : Host.Outcome State Fault Refusal :=
  .next (s.skipIf (!keyHeld x s))

end Sys2Proof.Machine
end

