-- ==== Sys2Proof/Machine/Display.lean ====
section
/-! DEFINITION. Display clear and the sprite blitter's instruction (44_display.md). -/

namespace Sys2Proof.Machine

/-- `00E0` CLS (R262). -/
def execCls (s : State) : Host.Outcome State Fault Refusal :=
  .next { s with disp := displayClear }

/-- `Dxyn` DRW Vx, Vy, n (R263): the origin is read before VF is written. -/
def execDrw (x y : Reg) (n : Nibble) (s : State) : Host.Outcome State Fault Refusal :=
  match memRead s.mem (dataAddr s) n.toNat with
  | none => .next (raiseIn (.drw x y n) .outOfBounds (.access (dataAddr s) n.toNat) s)
  | some rows =>
    let drawn := drawSprite s.disp rows (s.getV x).toNat (s.getV y).toNat
    .next (State.setV { s with disp := drawn.1 } vf (flagByte drawn.2))

end Sys2Proof.Machine
end

