-- ==== Sys2Proof/Machine/IndexMemory.lean ====
section
/-! DEFINITION. The index register and memory transfer (43_index_memory.md). -/

namespace Sys2Proof.Machine

/-- `Annn` LD I, nnn (R220). -/
def execLdI (nnn : Addr) (s : State) : Host.Outcome State Fault Refusal :=
  .next (s.setI (nnn.setWidth 16))

/-- `Fx1E` ADD I, Vx (R221). -/
def execAddI (x : Reg) (s : State) : Host.Outcome State Fault Refusal :=
  .next (s.setI (s.i + (s.getV x).setWidth 16))

/-- `Fx29` LD F, Vx (R222). -/
def execLdF (x : Reg) (s : State) : Host.Outcome State Fault Refusal :=
  .next (s.setI (glyphAddr x s))

/-- `Fx33` LD B, Vx (R223). -/
def execLdB (x : Reg) (s : State) : Host.Outcome State Fault Refusal :=
  match memWrite s.mem (dataAddr s) (decimalDigits (s.getV x)) with
  | none => .next (raiseIn (.ldB x) .outOfBounds (.access (dataAddr s) 3) s)
  | some m => .next { s with mem := m }

/-- `Fx55` LD [I], Vx (R224). -/
def execStoreRegs (x : Reg) (s : State) : Host.Outcome State Fault Refusal :=
  match memWrite s.mem (dataAddr s) (s.regsUpTo x) with
  | none => .next (raiseIn (.storeRegs x) .outOfBounds (.access (dataAddr s) (x.toNat + 1)) s)
  | some m => .next (State.advanceI { s with mem := m } x)

/-- `Fx65` LD Vx, [I] (R225): all bytes are read before any register is written. -/
def execLoadRegs (x : Reg) (s : State) : Host.Outcome State Fault Refusal :=
  match memRead s.mem (dataAddr s) (x.toNat + 1) with
  | none => .next (raiseIn (.loadRegs x) .outOfBounds (.access (dataAddr s) (x.toNat + 1)) s)
  | some bs => .next (State.advanceI { s with v := regsPutRun s.v 0 bs } x)

end Sys2Proof.Machine
end

