-- ==== Sys2Proof/Machine/RegisterAlu.lean ====
section
/-! DEFINITION. Register loads and arithmetic (42_register_alu.md). -/

namespace Sys2Proof.Machine

/-- `6xkk` LD Vx, kk (R170). -/
def execLdImm (x : Reg) (kk : Byte) (s : State) : Host.Outcome State Fault Refusal :=
  .next (s.setV x kk)

/-- `7xkk` ADD Vx, kk (R171): no flag. -/
def execAddImm (x : Reg) (kk : Byte) (s : State) : Host.Outcome State Fault Refusal :=
  .next (s.setV x (sumByte (s.getV x) kk))

/-- `8xy0` LD Vx, Vy (R172). -/
def execLdReg (x y : Reg) (s : State) : Host.Outcome State Fault Refusal :=
  .next (s.setV x (s.getV y))

/-- `8xy1` OR Vx, Vy (R173). -/
def execOrReg (x y : Reg) (s : State) : Host.Outcome State Fault Refusal :=
  .next (s.setLogicResult x (s.getV x ||| s.getV y))

/-- `8xy2` AND Vx, Vy (R174). -/
def execAndReg (x y : Reg) (s : State) : Host.Outcome State Fault Refusal :=
  .next (s.setLogicResult x (s.getV x &&& s.getV y))

/-- `8xy3` XOR Vx, Vy (R175). -/
def execXorReg (x y : Reg) (s : State) : Host.Outcome State Fault Refusal :=
  .next (s.setLogicResult x (s.getV x ^^^ s.getV y))

/-- `8xy4` ADD Vx, Vy (R176). -/
def execAddReg (x y : Reg) (s : State) : Host.Outcome State Fault Refusal :=
  .next (s.setResultFlag x (sumByte (s.getV x) (s.getV y)) (flagByte (carryOf (s.getV x) (s.getV y))))

/-- `8xy5` SUB Vx, Vy (R177). -/
def execSubReg (x y : Reg) (s : State) : Host.Outcome State Fault Refusal :=
  .next (s.setResultFlag x (diffByte (s.getV x) (s.getV y)) (flagByte (noBorrowOf (s.getV x) (s.getV y))))

/-- `8xy6` SHR Vx, Vy (R178). -/
def execShr (x y : Reg) (s : State) : Host.Outcome State Fault Refusal :=
  .next (s.setResultFlag x (shiftSource x y s >>> 1) (lowBit (shiftSource x y s)))

/-- `8xy7` SUBN Vx, Vy (R179). -/
def execSubn (x y : Reg) (s : State) : Host.Outcome State Fault Refusal :=
  .next (s.setResultFlag x (diffByte (s.getV y) (s.getV x)) (flagByte (noBorrowOf (s.getV y) (s.getV x))))

/-- `8xyE` SHL Vx, Vy (R180). -/
def execShl (x y : Reg) (s : State) : Host.Outcome State Fault Refusal :=
  .next (s.setResultFlag x (shiftSource x y s <<< 1) (highBit (shiftSource x y s)))

/-- `Cxkk` RND Vx, kk (R181): the random byte is the step's free input. -/
def execRnd (x : Reg) (kk : Byte) (s : State) : Host.Outcome State Fault Refusal :=
  .next (s.setV x (s.input.rand &&& kk))

end Sys2Proof.Machine
end

