-- ==== Sys2Proof/Machine/TimersKeypad.lean ====
section
/-! DEFINITION. Timers and key wait (45_timers_keypad.md), and the timers' ticks (60_exceptions.md R333, R334). -/

namespace Sys2Proof.Machine

/-- `Fx07` LD Vx, DT (R290). -/
def execLdVxDt (x : Reg) (s : State) : Host.Outcome State Fault Refusal :=
  .next (s.setV x s.dt)

/-- `Fx15` LD DT, Vx (R291). -/
def execLdDtVx (x : Reg) (s : State) : Host.Outcome State Fault Refusal :=
  .next { s with dt := s.getV x }

/-- `Fx18` LD ST, Vx (R292): a reload never beeps. -/
def execLdStVx (x : Reg) (s : State) : Host.Outcome State Fault Refusal :=
  .next { s with st := s.getV x }

/-- Fx0A on the key event the step received (R293). -/
def captureKey (x : Reg) (s : State) : Option Nibble → State
  | none => s.wait
  | some k => s.setV x (k.setWidth 8)

/-- `Fx0A` LD Vx, K (R293). -/
def execLdVxK (x : Reg) (s : State) : Host.Outcome State Fault Refusal :=
  .next (captureKey x s s.input.keyEvent)

/-- One tick of a timer's value (60_exceptions.md R333). -/
def tickDown (t : Byte) : Byte := if t = 0#8 then 0#8 else t - 1#8

/-- A sound-timer tick that finds this value beeps (60_exceptions.md R334). -/
def tickBeeps (t : Byte) : Bool := t == 1#8

/-- `dt_tick` (60_exceptions.md R335). -/
def delayTick (s : State) : State := { s with dt := tickDown s.dt, out := .ticked false }

/-- `st_tick` (60_exceptions.md R335), with the beep pulse of R334. -/
def soundTick (s : State) : State := { s with st := tickDown s.st, out := .ticked (tickBeeps s.st) }

end Sys2Proof.Machine
end

