-- ==== Sys2Proof/Machine/Agents.lean ====
section
/-! DEFINITION. The steps of the agents: the CPU cycle (30_encoding.md R94, R95, R105), the ticks, and the host's load, reset
and stop (70_reset_and_hazards.md R370, R372; 60_exceptions.md R344). -/

namespace Sys2Proof.Machine

/-! ## The CPU step (30_encoding.md R105) -/

/-- The fetch address leaves both bytes of an opcode inside memory: `pc0 + 1 <= 0xFFF` (R94). -/
def canFetch (s : State) : Bool := decide (s.pc.toNat + 1 ≤ 0xFFF)

/-- The opcode at `PC`, big-endian (R94, 20_memory.md R66). -/
def fetchWord (s : State) : Word := wordOfBytes (memByte s.mem s.pc.toNat) (memByte s.mem (s.pc.toNat + 1))

/-- The advance: `PC <- PC + 2` before the execute stage (R95). -/
def State.advance (s : State) : State := s.setPc (s.pc + 2#16)

/-- The state in which a CPU step with these inputs begins: its inputs are in, and the load window is closed
(70_reset_and_hazards.md R372). Its outcome is COMPLETED unless the execute stage says otherwise. -/
def State.beginCpu (s : State) (inp : CpuInput) : State :=
  { s with input := inp, loadOpen := false, out := .completed }

/-- The fetch fault: nothing changes but `status` (R94, R106). -/
def fetchFault (s : State) : State :=
  s.takeFault { kind := .outOfBounds, pc := s.pc, opcode := none, detail := .access s.pc.toNat 2 }

/-- The execute-stage fault of an opcode that no active row matches, on the advanced state (R99, R106). -/
def unknownFault (op : Word) (s : State) : State :=
  s.takeFault { kind := .unknownOpcode, pc := s.fetchAddr, opcode := some op, detail := .none }

/-- Advance, decode and execute a fetched opcode (R105). -/
def runWord (op : Word) (s : State) : Host.Outcome State Fault Refusal :=
  match decode s.params.opset op with
  | some i => exec i s.advance
  | none => .next (unknownFault op s.advance)

/-- One CPU step of a running block (R105). -/
def cpuStep (inp : CpuInput) (s : State) : Host.Outcome State Fault Refusal :=
  if canFetch s then runWord (fetchWord s) (s.beginCpu inp) else .next (fetchFault (s.beginCpu inp))

/-! ## Enabled steps -/

/-- A step that is enabled only while `status = RUNNING` (60_exceptions.md R330). -/
def whileRunning (s : State) (k : State → Host.Outcome State Fault Refusal) : Host.Outcome State Fault Refusal :=
  match s.status with
  | .running => k s
  | .faulted r => .fault (.halted r)

/-- `host_load(addr, bytes)` (70_reset_and_hazards.md R372). -/
def hostLoadStep (addr : Nat) (bytes : List Byte) (s : State) : Host.Outcome State Fault Refusal :=
  if s.loadOpen then
    match memWrite s.mem addr bytes with
    | none => .next { s with out := .loadRejected addr bytes.length }
    | some m => .next { s with mem := m, out := .loaded }
  else .refused (.hostLoadDuringRun addr bytes.length)

/-- The step of one agent. -/
def runEvent (e : Event) (s : State) : Host.Outcome State Fault Refusal :=
  match e with
  | .cpu inp => whileRunning s (cpuStep inp)
  | .dtTick => whileRunning s fun s => .next (delayTick s)
  | .stTick => whileRunning s fun s => .next (soundTick s)
  | .hostLoad addr bytes => hostLoadStep addr bytes s
  | .hostReset => .next s.resetBlock
  | .hostStop => whileRunning s fun s => .next { s with out := .stopped }

/-! ## Which agent steps next (60_exceptions.md R341, log 3, log 4) -/

/-- The free inputs of a CPU step that no schedule supplied (60_exceptions.md R340). -/
def freeInput (n : Nat) : CpuInput :=
  { keyEvent := Config.freeKeyEvent n, keysDown := Config.freeKeysDown n, rand := Config.freeRand n }

/-- The next event: the head of the schedule, or, when none is listed, a CPU step with free inputs. -/
def nextEvent (s : State) : Event :=
  match s.schedule with
  | [] => .cpu (freeInput s.draws)
  | e :: _ => e

/-- The state without the event that is taken. -/
def dropEvent (s : State) : State :=
  match s.schedule with
  | [] => { s with draws := s.draws + 1 }
  | _ :: rest => { s with schedule := rest }

/-! ## The host's boot order and the idle state -/

/-- The host's boot (70_reset_and_hazards.md R373): reset, the program at 0x200, and the glyphs at `FONT_BASE` if wanted. -/
def bootSchedule (p : Params) (program glyphs : List Byte) : List Event :=
  [.hostReset, .hostLoad Config.programOrigin.toNat program] ++
    (if glyphs = [] then [] else [.hostLoad p.fontBase.toNat glyphs])

/-- An idle state: the next instruction is a jump to itself (70_reset_and_hazards.md R381). -/
def idle (s : State) : Bool :=
  s.status == .running && canFetch s && fetchWord s == 0x1000#16 + s.pc

end Sys2Proof.Machine
end

