-- ==== Sys2Proof/Machine/Step.lean ====
section
/-! DEFINITION. One step of the block, and the placing of an instruction where the next step fetches it. -/

namespace Sys2Proof.Machine

/-- One atomic step of the agent that moves next (00_scope.md R3, 60_exceptions.md R341). -/
def step (s : State) : Host.Outcome State Fault Refusal :=
  runEvent (nextEvent s) (dropEvent s)

/-- The state with a CPU step next: the schedule is left alone when its next step is the CPU's already. -/
def State.withCpuNext (s : State) : State :=
  match s.schedule with
  | [] => s
  | .cpu _ :: _ => s
  | _ => { s with schedule := .cpu s.input :: s.schedule }

/-- The state with the table word stored at `PC`, `status` running, and the CPU next, so that the next step fetches and runs
it. A `PC` from which nothing can be fetched is first set to the program origin (log 19). -/
def State.withFetchWord (s : State) (nbits w : Nat) : State :=
  let s := if canFetch s then s else s.setPc Config.programOrigin
  { s.withCpuNext with mem := memPutRun s.mem s.pc.toNat (bytesOfTableWord nbits w), status := .running }

end Sys2Proof.Machine
end

