-- ==== Sys2Proof/Safety.lean ====
section
/-! DEFINITION. The vocabulary of the claims: the invariant of the machine, safe runs, and the spec's own words for what a
claim says (sprite hits, opcode ranges). -/

namespace Sys2Proof

/-- How many bits of a mask are set: the spec's "most specific" (30_encoding.md R96). -/
def maskBits (m : Word) : Nat := (List.range 16).countP fun k => m.getLsbD k

/-- The opcodes that `OPSET = FULL` takes as unknown, range by range (30_encoding.md R101): `a` is the major opcode. -/
def unknownInFull (op : Word) : Prop :=
  let a := op.toNat / 4096
  let kk := op.toNat % 256
  let n := op.toNat % 16
  (a = 0x0 ∧ op.toNat ≠ 0x00E0 ∧ op.toNat ≠ 0x00EE) ∨
  (a = 0x5 ∧ n ≠ 0) ∨
  (a = 0x8 ∧ n ∈ [0x8, 0x9, 0xA, 0xB, 0xC, 0xD, 0xF]) ∨
  (a = 0x9 ∧ n ≠ 0) ∨
  (a = 0xE ∧ kk ∉ [0x9E, 0xA1]) ∨
  (a = 0xF ∧ kk ∉ [0x07, 0x0A, 0x15, 0x18, 0x1E, 0x29, 0x33, 0x55, 0x65])

/-- The registers that an instruction may write: its own operands, and VF as a flag (10_state.md R21, R22); `p` says whether
the logic instructions clear VF. -/
def Instr.writesV (p : Params) (r : Reg) : Instr → Prop
  | .ldImm x _ | .addImm x _ | .ldReg x _ | .rnd x _ | .ldVxDt x | .ldVxK x => r = x
  | .orReg x _ | .andReg x _ | .xorReg x _ => r = x ∨ (p.qLogicClearsVf = true ∧ r = 0xF#4)
  | .addReg x _ | .subReg x _ | .shr x _ | .subn x _ | .shl x _ => r = x ∨ r = 0xF#4
  | .drw _ _ _ => r = 0xF#4
  | .loadRegs x => r.toNat ≤ x.toNat
  | .cls | .ret | .sys _ | .jp _ | .call _ | .seImm _ _ | .sneImm _ _ | .seReg _ _ | .sneReg _ _ | .ldI _ | .jpV0 _
  | .skp _ | .sknp _ | .ldDtVx _ | .ldStVx _ | .addI _ | .ldF _ | .ldB _ | .storeRegs _ => False

/-- The instructions that write `PC` in the execute stage: jumps, calls, returns, skips, and Fx0A, whose wait takes `PC` back
(10_state.md R27, 30_encoding.md R107). -/
def Instr.writesPc : Instr → Bool
  | .ret | .jp _ | .call _ | .jpV0 _ | .seImm _ _ | .sneImm _ _ | .seReg _ _ | .sneReg _ _ | .skp _ | .sknp _
  | .ldVxK _ => true
  | .cls | .sys _ | .ldImm _ _ | .addImm _ _ | .ldReg _ _ | .orReg _ _ | .andReg _ _ | .xorReg _ _ | .addReg _ _
  | .subReg _ _ | .shr _ _ | .subn _ _ | .shl _ _ | .ldI _ | .rnd _ _ | .drw _ _ _ | .ldVxDt _ | .ldDtVx _
  | .ldStVx _ | .addI _ | .ldF _ | .ldB _ | .storeRegs _ | .loadRegs _ => false

/-- The instructions that can raise a fault, which alone writes `status` (60_exceptions.md R320). -/
def Instr.mayFault : Instr → Bool
  | .ret | .sys _ | .call _ | .drw _ _ _ | .ldB _ | .storeRegs _ | .loadRegs _ => true
  | .cls | .jp _ | .seImm _ _ | .sneImm _ _ | .seReg _ _ | .ldImm _ _ | .addImm _ _ | .ldReg _ _ | .orReg _ _
  | .andReg _ _ | .xorReg _ _ | .addReg _ _ | .subReg _ _ | .shr _ _ | .subn _ _ | .shl _ _ | .sneReg _ _ | .ldI _
  | .jpV0 _ | .rnd _ _ | .skp _ | .sknp _ | .ldVxDt _ | .ldVxK _ | .ldDtVx _ | .ldStVx _ | .addI _ | .ldF _ => false

namespace Machine

/-- The invariant of the block: what every step keeps. -/
structure State.Inv (s : State) : Prop where
  /-- Memory is in its canonical form, every listed address inside the 4096 bytes (20_memory.md R60). -/
  memory : Memory.wf s.mem = true
  /-- "the invariant `I <= 0xFFF` holds in every reachable state" (10_state.md R26). -/
  index : s.i.toNat ≤ 0xFFF
  /-- "the largest value any rule can write is ... 0x10FE" (10_state.md R27). -/
  counter : s.pc.toNat ≤ 0x10FE
  /-- `STACK` has `STACK_DEPTH` entries (10_state.md R31). -/
  stackSize : s.stack.length = s.params.stackDepth
  /-- `SP` is in 0..STACK_DEPTH (10_state.md R31). -/
  stackPointer : s.sp ≤ s.params.stackDepth
  /-- A return address is at most 0x1000 (41_control_flow.md R132). -/
  stackEntries : ∀ a ∈ s.stack, a.toNat ≤ 0x1000
  /-- "When `OPSET = BASELINE` the stack exists with `SP = 0`" (10_state.md R31). -/
  baselineStack : s.params.opset = .baseline → s.sp = 0
  /-- Kinds 2 and 3 are raised by no step (60_exceptions.md R322, R323). -/
  faultKind : ∀ r, s.status = .faulted r → r.kind ≠ .registerIndexOutOfBounds ∧ r.kind ≠ .invalidByteValue
  /-- A fault needs a CPU step, and a CPU step closes the load window (70_reset_and_hazards.md R372). -/
  loadWindow : s.loadOpen = true → s.status = .running

/-- The state vector of 10_state.md R20 is the same in both. -/
def State.sameVector (s t : State) : Prop :=
  t.v = s.v ∧ t.i = s.i ∧ t.pc = s.pc ∧ t.mem = s.mem ∧ t.disp = s.disp ∧ t.dt = s.dt ∧ t.st = s.st ∧ t.sp = s.sp ∧
    t.stack = s.stack ∧ t.status = s.status

/-- Some set bit of the sprite has the target pixel: column `x`, row `y`; bit 7 of a row is its column 0 (44_display.md R261). -/
def spriteHits (rows : List Byte) (ox oy : Nat) (y : Fin 32) (x : Fin 64) : Prop :=
  ∃ r c, ∃ h : r < rows.length, c < 8 ∧ rows[r].toNat / 2 ^ (7 - c) % 2 = 1 ∧
    x.val = (ox + c) % 64 ∧ y.val = (oy + r) % 32

/-- A safe run of `k` steps: no step faults or is refused, and the block is never `FAULTED` on the way
(70_reset_and_hazards.md R380). -/
def SafeRun : Nat → State → Prop
  | 0, s => s.status = .running
  | k + 1, s => s.status = .running ∧ ∃ t, step s = .next t ∧ SafeRun k t

end Machine

end Sys2Proof
end

