-- ==== Sys2Proof/Certificates/Slice0/Obligations.lean ====
section
/-! DEFINITION. The statements for the provers, from the numbered rules of spec/. Where a docstring says "the model's
choice", the clause rests on the log entry it names and on no rule. -/

open Sys2Proof Sys2Proof.Machine

/-! ## Encoding -/

/-- Decoding the word of a well-formed instruction gives it back, with every operand, under either opcode set. -/
def Obligations.DecodeOfEncodeIsTheInstruction : Prop :=
  ∀ (o : OpSet) (i : Instr), i.wellFormed o = true → decode o (encode i) = some i

/-- A word that decodes is the word of the instruction it decodes to, and that instruction is well-formed. -/
def Obligations.EncodeOfDecodeIsTheWord : Prop :=
  ∀ (o : OpSet) (op : Word) (i : Instr), decode o op = some i → encode i = op ∧ i.wellFormed o = true

/-- 30_encoding.md, decode precedence: the decoder answers the active matching row with the most mask bits, and nothing
exactly when no active row matches; the match values of one mask are distinct. -/
def Obligations.DecoderTakesTheMostSpecificActiveRow : Prop :=
  ∀ (o : OpSet) (op : Word),
    (∀ i, decode o op = some i → ∃ r ∈ opRows, rowActive o r = true ∧ op &&& r.mask = r.val ∧ i = r.build op ∧
      ∀ q ∈ opRows, rowActive o q = true → op &&& q.mask = q.val → maskBits q.mask ≤ maskBits r.mask) ∧
    (decode o op = none ↔ ∀ q ∈ opRows, rowActive o q = true → op &&& q.mask ≠ q.val) ∧
    opRows.Pairwise fun q r => ¬(q.mask = r.mask ∧ q.val = r.val)

/-- The opcodes that run into UnknownOpcode under FULL, range by range: those that decode to nothing, and the words of
0nnn, which decode to SYS (log 14). -/
def Obligations.UnknownOpcodesOfTheFullSet : Prop :=
  ∀ op : Word, (decode .full op = none ∨ ∃ nnn, decode .full op = some (.sys nnn)) ↔ unknownInFull op

/-- Under BASELINE the decoder reads exactly the words that FULL reads as one of the 13 baseline rows. -/
def Obligations.BaselineDecodesTheThirteenRows : Prop :=
  ∀ op : Word, decode .baseline op = (decode .full op).filter Instr.inBaseline

/-- Words written out from the encodings of 30_encoding.md, one a family, decode to the instruction they stand for. -/
def Obligations.WrittenWordsDecode : Prop :=
  decode .full 0b0000000011100000#16 = some .cls ∧
  decode .full 0b0001001000110100#16 = some (.jp 0x234#12) ∧
  decode .full 0b0011001100000101#16 = some (.seImm 0x3#4 0x05#8) ∧
  decode .full 0b1000000100100100#16 = some (.addReg 0x1#4 0x2#4) ∧
  decode .full 0b1000000100101110#16 = some (.shl 0x1#4 0x2#4) ∧
  decode .full 0b1010001011110000#16 = some (.ldI 0x2F0#12) ∧
  decode .full 0b1101000000010101#16 = some (.drw 0x0#4 0x1#4 0x5#4) ∧
  decode .full 0b1110010110011110#16 = some (.skp 0x5#4) ∧
  decode .full 0b1111000101100101#16 = some (.loadRegs 0x1#4) ∧
  decode .baseline 0b1111001000001010#16 = some (.ldVxK 0x2#4) ∧
  decode .baseline 0b1000000100101110#16 = none ∧
  decode .full 0b1111111111111111#16 = none

/-! ## The CPU cycle -/

/-- When the bytes at `PC` decode to `i`, a CPU step is `exec i` at the state advanced past the two bytes, with the step's
inputs in. The schedule, `input`, `loadOpen` and `out` are the model's own (logs 3, 5, 6, 7). -/
def Obligations.StepRunsTheDecodedInstruction : Prop :=
  ∀ (s : State) (inp : CpuInput) (rest : List Event) (i : Instr),
    s.status = .running → s.schedule = .cpu inp :: rest → s.pc.toNat ≤ 0xFFE →
    decode s.params.opset
      (BitVec.ofNat 16 ((memByte s.mem s.pc.toNat).toNat * 256 + (memByte s.mem (s.pc.toNat + 1)).toNat)) = some i →
    step s = exec i { s with
      pc := s.pc + 2#16, schedule := rest, input := inp, loadOpen := false, out := .completed }

/-- The same when no step is scheduled: the model's choice is a CPU step with free inputs (logs 3, 4). -/
def Obligations.UnscheduledStepDrawsFreeInputs : Prop :=
  ∀ (s : State) (i : Instr), s.status = .running → s.schedule = [] → s.pc.toNat ≤ 0xFFE →
    decode s.params.opset
      (BitVec.ofNat 16 ((memByte s.mem s.pc.toNat).toNat * 256 + (memByte s.mem (s.pc.toNat + 1)).toNat)) = some i →
    step s = exec i { s with
      pc := s.pc + 2#16, draws := s.draws + 1, loadOpen := false, out := .completed,
      input := { keyEvent := Config.freeKeyEvent s.draws, keysDown := Config.freeKeysDown s.draws,
                 rand := Config.freeRand s.draws } }

/-- A fetch reads two consecutive bytes at `PC`, odd or even, high byte first, and hands the opcode on; past 0xFFE it raises
OutOfBounds with `(PC, 2)` and changes nothing else of the state vector. The schedule, `input`, `loadOpen` and `out` are the
model's own (logs 3, 5, 6, 7). -/
def Obligations.FetchIsBigEndianOrFaults : Prop :=
  ∀ (s : State) (inp : CpuInput) (rest : List Event), s.status = .running → s.schedule = .cpu inp :: rest →
    (s.pc.toNat ≤ 0xFFE → step s = runWord
      (BitVec.ofNat 16 ((memByte s.mem s.pc.toNat).toNat * 256 + (memByte s.mem (s.pc.toNat + 1)).toNat))
      { s with schedule := rest, input := inp, loadOpen := false, out := .completed }) ∧
    (s.pc.toNat > 0xFFE → ∃ t r, step s = .next t ∧
      t = { s with schedule := rest, input := inp, loadOpen := false, out := .faulted, status := .faulted r } ∧
      r.kind = .outOfBounds ∧ r.detail = .access s.pc.toNat 2)

/-- A fetched word that no active row matches: the advance is kept, the record holds the fetch address and the word, and
nothing else changes (decision D7; the record's empty detail is log 11). -/
def Obligations.UnmatchedWordFaultsOnTheAdvancedState : Prop :=
  ∀ (s : State) (inp : CpuInput) (rest : List Event) (op : Word),
    s.status = .running → s.schedule = .cpu inp :: rest → s.pc.toNat ≤ 0xFFE →
    op.toNat = (memByte s.mem s.pc.toNat).toNat * 256 + (memByte s.mem (s.pc.toNat + 1)).toNat →
    decode s.params.opset op = none →
    ∃ t, step s = .next t ∧ t = { s with
      pc := s.pc + 2#16, schedule := rest, input := inp, loadOpen := false, out := .faulted,
      status := .faulted { kind := .unknownOpcode, pc := s.pc, opcode := some op, detail := .none } }

/-- Faults are precise: a CPU step that ends FAULTED has recorded its fetch address and opcode and has made no write but the
advance of `PC`, and that only after a fetch (decision D7). -/
def Obligations.FaultsArePrecise : Prop :=
  ∀ (s t : State) (inp : CpuInput) (rest : List Event) (r : FaultRecord),
    s.status = .running → s.schedule = .cpu inp :: rest → step s = .next t → t.status = .faulted r →
    t = { s with
      pc := if s.pc.toNat ≤ 0xFFE then s.pc + 2#16 else s.pc,
      schedule := rest, input := inp, loadOpen := false, out := .faulted, status := .faulted r } ∧
    r.pc = s.pc ∧
    r.opcode = if s.pc.toNat ≤ 0xFFE then
      some (BitVec.ofNat 16 ((memByte s.mem s.pc.toNat).toNat * 256 + (memByte s.mem (s.pc.toNat + 1)).toNat)) else none

/-- Which fault a CPU step raises, and when: first the fetch, then the opcode, then the one check of the instruction, and no
other (60_exceptions.md, priority). -/
def Obligations.EachFaultHasItsCause : Prop :=
  ∀ (s t : State) (inp : CpuInput) (rest : List Event) (r : FaultRecord),
    s.status = .running → s.schedule = .cpu inp :: rest → step s = .next t → t.status = .faulted r →
    (s.pc.toNat > 0xFFE ∧ r.kind = .outOfBounds ∧ r.detail = .access s.pc.toNat 2) ∨
    (s.pc.toNat ≤ 0xFFE ∧ ∃ op : Word,
      op.toNat = (memByte s.mem s.pc.toNat).toNat * 256 + (memByte s.mem (s.pc.toNat + 1)).toNat ∧
      ((decode s.params.opset op = none ∧ r.kind = .unknownOpcode) ∨
       (∃ nnn, decode s.params.opset op = some (.sys nnn) ∧ r.kind = .unknownOpcode) ∨
       (∃ nnn, decode s.params.opset op = some (.call nnn) ∧ s.sp = s.params.stackDepth ∧
          r.kind = .stackOverflow ∧ r.detail = .stackPointer s.sp) ∨
       (decode s.params.opset op = some .ret ∧ s.sp = 0 ∧ r.kind = .stackUnderflow ∧ r.detail = .stackPointer 0) ∨
       (∃ x y n, decode s.params.opset op = some (.drw x y n) ∧ s.i.toNat + n.toNat > 4096 ∧
          r.kind = .outOfBounds ∧ r.detail = .access s.i.toNat n.toNat) ∨
       (∃ x, decode s.params.opset op = some (.ldB x) ∧ s.i.toNat + 3 > 4096 ∧
          r.kind = .outOfBounds ∧ r.detail = .access s.i.toNat 3) ∨
       (∃ x, (decode s.params.opset op = some (.storeRegs x) ∨ decode s.params.opset op = some (.loadRegs x)) ∧
          s.i.toNat + x.toNat + 1 > 4096 ∧ r.kind = .outOfBounds ∧ r.detail = .access s.i.toNat (x.toNat + 1))))

/-- In FAULTED no CPU step and no tick is enabled (the model answers its own fault `halted`, log 2), and only the host's
reset leads back to RUNNING (decision D8). -/
def Obligations.OnlyResetLeavesAFault : Prop :=
  ∀ (s : State) (r : FaultRecord), s.status = .faulted r →
    (∀ (e : Event) (rest : List Event), s.schedule = e :: rest → (∃ inp, e = .cpu inp) ∨ e = .dtTick ∨ e = .stTick →
      step s = .fault (.halted r)) ∧
    (s.schedule = [] → step s = .fault (.halted r)) ∧
    (∀ t, step s = .next t → t.status = .running → ∃ rest, s.schedule = .hostReset :: rest)

/-- Fx0A's wait, as a step: a CPU step whose outcome is WAITING leaves the whole state vector as it was (decision D9); only
the model's own fields move. -/
def Obligations.WaitingStepChangesNothing : Prop :=
  ∀ (s t : State) (inp : CpuInput) (rest : List Event), s.status = .running → s.schedule = .cpu inp :: rest →
    step s = .next t → t.out = .waiting →
    inp.keyEvent = none ∧ t = { s with schedule := rest, input := inp, loadOpen := false, out := .waiting }

/-! ## Timers and the host -/

/-- A tick takes its own timer down by 1, holds it at 0, and touches nothing else of the state vector. The dropped schedule
entry and `out` are the model's own (logs 3, 6). -/
def Obligations.TimerTicksCountDownToZero : Prop :=
  ∀ (s : State) (rest : List Event), s.status = .running →
    (s.schedule = .dtTick :: rest → ∃ t, step s = .next t ∧
      t = { s with dt := t.dt, schedule := rest, out := t.out } ∧ t.dt.toNat = s.dt.toNat - 1) ∧
    (s.schedule = .stTick :: rest → ∃ t, step s = .next t ∧
      t = { s with st := t.st, schedule := rest, out := t.out } ∧ t.st.toNat = s.st.toNat - 1)

/-- The beep is put out by exactly the sound-timer ticks that find `ST = 1`, and by no other step of any agent (decision
D14; `out` is the model's port, log 6). -/
def Obligations.BeepIsExactlyTheSoundTickFromOne : Prop :=
  ∀ s t : State, step s = .next t →
    (t.out = .ticked true ↔ s.status = .running ∧ s.schedule.head? = some .stTick ∧ s.st.toNat = 1)

/-- A host load in its window stores the whole run or nothing, and never touches `status` (decision D21); outside the window
it is refused by name (log 8). -/
def Obligations.HostLoadIsAllOrNothingInItsWindow : Prop :=
  ∀ (s : State) (addr : Nat) (bytes : List Byte) (rest : List Event),
    Memory.wf s.mem = true → s.schedule = .hostLoad addr bytes :: rest →
    (s.loadOpen = true → addr + bytes.length ≤ 4096 → ∃ t, step s = .next t ∧
      t = { s with mem := t.mem, schedule := rest, out := .loaded } ∧
      (∀ k, ∀ h : k < bytes.length, memByte t.mem (addr + k) = bytes[k]) ∧
      ∀ a, a < addr ∨ addr + bytes.length ≤ a → memByte t.mem a = memByte s.mem a) ∧
    (s.loadOpen = true → addr + bytes.length > 4096 →
      step s = .next { s with schedule := rest, out := .loadRejected addr bytes.length }) ∧
    (s.loadOpen = false → step s = .refused (.hostLoadDuringRun addr bytes.length))

/-- What reset leaves: every element at its value in 10_state.md section 5, with the default parameters. -/
def Obligations.ResetStateHoldsTheSpecValues : Prop :=
  (∀ r, State.reset.getV r = 0#8) ∧ State.reset.i = 0#16 ∧ State.reset.pc = 0x200#16 ∧
  (∀ a, memByte State.reset.mem a = 0#8) ∧ (∀ y x, pixel State.reset.disp y x = false) ∧
  State.reset.dt = 0#8 ∧ State.reset.st = 0#8 ∧ State.reset.sp = 0 ∧
  State.reset.stack.length = 16 ∧ (∀ a ∈ State.reset.stack, a = 0#16) ∧ State.reset.status = .running

/-- The host's reset is enabled in every state, FAULTED too, and restores every element of the state vector (decision D33);
the parameters, the schedule and the draws are the environment's and stay (log 16). -/
def Obligations.HostResetRestoresTheResetState : Prop :=
  ∀ (s : State) (rest : List Event), s.schedule = .hostReset :: rest → ∃ t, step s = .next t ∧
    t.params = s.params ∧ t.schedule = rest ∧ t.draws = s.draws ∧ t.loadOpen = true ∧
    (∀ r, t.getV r = 0#8) ∧ t.i = 0#16 ∧ t.pc = 0x200#16 ∧ (∀ a, memByte t.mem a = 0#8) ∧
    (∀ y x, pixel t.disp y x = false) ∧ t.dt = 0#8 ∧ t.st = 0#8 ∧ t.sp = 0 ∧
    t.stack = List.replicate s.params.stackDepth 0#16 ∧ t.status = .running

/-- A host stop changes no element of the state vector. -/
def Obligations.HostStopChangesNoState : Prop :=
  ∀ (s : State) (rest : List Event), s.status = .running → s.schedule = .hostStop :: rest →
    ∃ t, step s = .next t ∧ t.out = .stopped ∧ t.schedule = rest ∧ s.sameVector t

/-! ## Memory -/

/-- `write_byte` then `read_byte`: inside memory the byte comes back and no other byte changes; outside, both fail. -/
def Obligations.ByteWriteThenReadRoundTrips : Prop :=
  ∀ (m : Memory) (a : Nat) (b : Byte), Memory.wf m = true →
    (a < 4096 → ∃ m', writeByte m a b = some m' ∧ Memory.wf m' = true ∧ readByte m' a = some b ∧
      ∀ c, c ≠ a → readByte m' c = readByte m c) ∧
    (a < 4096 → ∃ c, readByte m a = some c) ∧
    (4096 ≤ a → writeByte m a b = none ∧ readByte m a = none)

/-- `MemWrite` writes the whole run, and every byte outside it is unchanged, or it fails and writes nothing. -/
def Obligations.RunWriteIsAllOrNothing : Prop :=
  ∀ (m : Memory) (a : Nat) (bs : List Byte), Memory.wf m = true →
    (a + bs.length > 4096 → memWrite m a bs = none) ∧
    (a + bs.length ≤ 4096 → ∃ m', memWrite m a bs = some m' ∧ Memory.wf m' = true ∧
      (∀ k, ∀ h : k < bs.length, memByte m' (a + k) = bs[k]) ∧
      ∀ c, c < a ∨ a + bs.length ≤ c → memByte m' c = memByte m c)

/-- Fetch is coherent with stores: after Fx55 has stored over the next instruction, the next fetch reads the stored bytes. -/
def Obligations.FetchSeesTheStoredBytes : Prop :=
  ∀ (s t : State) (x : Reg), Memory.wf s.mem = true → exec (.storeRegs x) s = .next t →
    s.i.toNat + x.toNat + 1 ≤ 4096 → 1 ≤ x.toNat → s.pc = s.i →
    (fetchWord t).toNat = (s.getV 0x0#4).toNat * 256 + (s.getV 0x1#4).toNat

/-! ## Control flow -/

/-- `1nnn`: the target is absolute and overrides the advance; nothing else changes. -/
def Obligations.JumpSetsTheAbsoluteTarget : Prop :=
  ∀ (o : OpSet) (s : State) (nnn : Addr),
    decode o (BitVec.ofNat 16 (0x1000 + nnn.toNat)) = some (.jp nnn) ∧
    ∃ t, exec (.jp nnn) s = .next t ∧ t = { s with pc := t.pc } ∧ t.pc.toNat = nnn.toNat

/-- `3xkk` and `4xkk`: skip adds 2 to the advanced `PC` when the comparison holds; nothing else changes. -/
def Obligations.ImmediateSkipsCompareWithTheByte : Prop :=
  ∀ (o : OpSet) (s : State) (x : Reg) (kk : Byte),
    decode o (BitVec.ofNat 16 (0x3000 + x.toNat * 256 + kk.toNat)) = some (.seImm x kk) ∧
    decode o (BitVec.ofNat 16 (0x4000 + x.toNat * 256 + kk.toNat)) = some (.sneImm x kk) ∧
    (∃ t, exec (.seImm x kk) s = .next t ∧
      t = { s with pc := if (s.getV x).toNat = kk.toNat then s.pc + 2#16 else s.pc }) ∧
    (∃ t, exec (.sneImm x kk) s = .next t ∧
      t = { s with pc := if (s.getV x).toNat ≠ kk.toNat then s.pc + 2#16 else s.pc })

/-- `5xy0` and `9xy0` (general knowledge, decision D2). -/
def Obligations.RegisterSkipsCompareTwoRegisters : Prop :=
  ∀ (s : State) (x y : Reg),
    (∃ t, exec (.seReg x y) s = .next t ∧
      t = { s with pc := if (s.getV x).toNat = (s.getV y).toNat then s.pc + 2#16 else s.pc }) ∧
    (∃ t, exec (.sneReg x y) s = .next t ∧
      t = { s with pc := if (s.getV x).toNat ≠ (s.getV y).toNat then s.pc + 2#16 else s.pc })

/-- `Ex9E` and `ExA1` test the key that the low nibble of `V[x]` names (decisions D10, D19). -/
def Obligations.KeySkipsTestTheHeldKey : Prop :=
  ∀ (s : State) (x : Reg),
    (∃ t, exec (.skp x) s = .next t ∧
      t = { s with pc := if s.input.keysDown.getLsbD ((s.getV x).toNat % 16) = true then s.pc + 2#16 else s.pc }) ∧
    (∃ t, exec (.sknp x) s = .next t ∧
      t = { s with pc := if s.input.keysDown.getLsbD ((s.getV x).toNat % 16) = true then s.pc else s.pc + 2#16 })

/-- `Bnnn`: the sum is not masked (decisions D3, D20). -/
def Obligations.IndexedJumpAddsARegisterUnmasked : Prop :=
  ∀ (s : State) (nnn : Addr), ∃ t, exec (.jpV0 nnn) s = .next t ∧ t = { s with pc := t.pc } ∧
    (s.params.qJumpVx = false → t.pc.toNat = nnn.toNat + (s.getV 0x0#4).toNat) ∧
    (s.params.qJumpVx = true → t.pc.toNat = nnn.toNat + (s.getV (BitVec.ofNat 4 (nnn.toNat / 256))).toNat)

/-- `2nnn`: the return address goes to `STACK[SP]`, or StackOverflow is raised before any write (decision D12). -/
def Obligations.CallPushesTheReturnAddressOrOverflows : Prop :=
  ∀ (s : State) (nnn : Addr), s.stack.length = s.params.stackDepth →
    (s.sp < s.params.stackDepth → ∃ t, exec (.call nnn) s = .next t ∧
      t = { s with pc := t.pc, sp := s.sp + 1, stack := t.stack } ∧ t.pc.toNat = nnn.toNat ∧
      t.stack.length = s.stack.length ∧ stackEntry t.stack s.sp = s.pc ∧
      ∀ k, k ≠ s.sp → stackEntry t.stack k = stackEntry s.stack k) ∧
    (s.sp = s.params.stackDepth → ∃ t, exec (.call nnn) s = .next t ∧ t = { s with
      status := .faulted { kind := .stackOverflow, pc := s.pc - 2#16, opcode := some (encode (.call nnn)),
                           detail := .stackPointer s.sp }, out := .faulted })

/-- `00EE`: `PC` becomes the entry below `SP`, which stays in `STACK`, or StackUnderflow is raised before any write
(decision D12). -/
def Obligations.ReturnPopsOrUnderflows : Prop :=
  ∀ s : State,
    (0 < s.sp → ∃ t, exec .ret s = .next t ∧
      t = { s with pc := stackEntry s.stack (s.sp - 1), sp := s.sp - 1 }) ∧
    (s.sp = 0 → ∃ t, exec .ret s = .next t ∧ t = { s with
      status := .faulted { kind := .stackUnderflow, pc := s.pc - 2#16, opcode := some 0x00EE#16,
                           detail := .stackPointer 0 }, out := .faulted })

/-- A call and the return that follows it come back to the instruction after the call, with the stack pointer as before. -/
def Obligations.ReturnUndoesCall : Prop :=
  ∀ (s t : State) (nnn : Addr), s.stack.length = s.params.stackDepth → s.sp < s.params.stackDepth →
    exec (.call nnn) s = .next t →
    ∃ u, exec .ret t = .next u ∧ u.pc = s.pc ∧ u.sp = s.sp ∧ u = { s with stack := u.stack }

/-- `0nnn` raises UnknownOpcode with its own word and changes nothing else (decision D17). -/
def Obligations.SysRaisesUnknownOpcode : Prop :=
  ∀ (s : State) (nnn : Addr), ∃ t, exec (.sys nnn) s = .next t ∧ t = { s with
    status := .faulted { kind := .unknownOpcode, pc := s.pc - 2#16, opcode := some (BitVec.ofNat 16 nnn.toNat),
                         detail := .none }, out := .faulted }

/-! ## Registers and arithmetic -/

/-- `6xkk`: V[x] is the byte; every other register and everything else is unchanged. -/
def Obligations.LoadImmediateSetsTheRegister : Prop :=
  ∀ (o : OpSet) (s : State) (x : Reg) (kk : Byte),
    decode o (BitVec.ofNat 16 (0x6000 + x.toNat * 256 + kk.toNat)) = some (.ldImm x kk) ∧
    ∃ t, exec (.ldImm x kk) s = .next t ∧ t = { s with v := t.v } ∧ t.getV x = kk ∧
      ∀ r, r ≠ x → t.getV r = s.getV r

/-- `7xkk`: the sum mod 256, and no flag: VF is unchanged unless it is V[x]. -/
def Obligations.AddImmediateWrapsWithoutFlag : Prop :=
  ∀ (o : OpSet) (s : State) (x : Reg) (kk : Byte),
    decode o (BitVec.ofNat 16 (0x7000 + x.toNat * 256 + kk.toNat)) = some (.addImm x kk) ∧
    ∃ t, exec (.addImm x kk) s = .next t ∧ t = { s with v := t.v } ∧
      (t.getV x).toNat = ((s.getV x).toNat + kk.toNat) % 256 ∧ ∀ r, r ≠ x → t.getV r = s.getV r

/-- `8xy4`: the sum mod 256 to V[x], then the carry to VF, so that for x = F the carry remains. -/
def Obligations.AddRegistersSetsTheCarryLast : Prop :=
  ∀ (o : OpSet) (s : State) (x y : Reg),
    decode o (BitVec.ofNat 16 (0x8004 + x.toNat * 256 + y.toNat * 16)) = some (.addReg x y) ∧
    ∃ t, exec (.addReg x y) s = .next t ∧ t = { s with v := t.v } ∧
      (x ≠ 0xF#4 → (t.getV x).toNat = ((s.getV x).toNat + (s.getV y).toNat) % 256) ∧
      (t.getV 0xF#4).toNat = (if (s.getV x).toNat + (s.getV y).toNat > 255 then 1 else 0) ∧
      ∀ r, r ≠ x → r ≠ 0xF#4 → t.getV r = s.getV r

/-- `8xy0` (general knowledge, decision D2). -/
def Obligations.RegisterCopyMovesTheByte : Prop :=
  ∀ (s : State) (x y : Reg), ∃ t, exec (.ldReg x y) s = .next t ∧ t = { s with v := t.v } ∧
    t.getV x = s.getV y ∧ ∀ r, r ≠ x → t.getV r = s.getV r

/-- `8xy1`, `8xy2`, `8xy3`: the bitwise result; VF is 0 under `Q_LOGIC_CLEARS_VF`, also when x = F, and otherwise no flag is
written (decision D3). -/
def Obligations.LogicResultsAndTheClearedFlag : Prop :=
  ∀ (s : State) (x y : Reg) (i : Instr) (w : Byte),
    (i = .orReg x y ∧ w = s.getV x ||| s.getV y) ∨ (i = .andReg x y ∧ w = s.getV x &&& s.getV y) ∨
      (i = .xorReg x y ∧ w = s.getV x ^^^ s.getV y) →
    ∃ t, exec i s = .next t ∧ t = { s with v := t.v } ∧
      (s.params.qLogicClearsVf = true → t.getV 0xF#4 = 0#8) ∧
      (x ≠ 0xF#4 ∨ s.params.qLogicClearsVf = false → t.getV x = w) ∧
      (∀ r, r ≠ x → r ≠ 0xF#4 → t.getV r = s.getV r) ∧
      (x ≠ 0xF#4 → s.params.qLogicClearsVf = false → t.getV 0xF#4 = s.getV 0xF#4)

/-- `8xy5` and `8xy7`: the difference mod 256, then VF = 1 for no borrow (decision D2). -/
def Obligations.SubtractionsSetNoBorrowLast : Prop :=
  ∀ (s : State) (x y : Reg),
    (∃ t, exec (.subReg x y) s = .next t ∧ t = { s with v := t.v } ∧
      (x ≠ 0xF#4 → (t.getV x).toNat = ((s.getV x).toNat + 256 - (s.getV y).toNat) % 256) ∧
      (t.getV 0xF#4).toNat = (if (s.getV x).toNat ≥ (s.getV y).toNat then 1 else 0) ∧
      ∀ r, r ≠ x → r ≠ 0xF#4 → t.getV r = s.getV r) ∧
    (∃ t, exec (.subn x y) s = .next t ∧ t = { s with v := t.v } ∧
      (x ≠ 0xF#4 → (t.getV x).toNat = ((s.getV y).toNat + 256 - (s.getV x).toNat) % 256) ∧
      (t.getV 0xF#4).toNat = (if (s.getV y).toNat ≥ (s.getV x).toNat then 1 else 0) ∧
      ∀ r, r ≠ x → r ≠ 0xF#4 → t.getV r = s.getV r)

/-- `8xy6` and `8xyE`: one place, from V[y] or V[x] by `Q_SHIFT_FROM_VY`, then the bit shifted out to VF (decision D3). -/
def Obligations.ShiftsSetTheShiftedOutBitLast : Prop :=
  ∀ (s : State) (x y : Reg) (src : Nat),
    src = (if s.params.qShiftFromVy = true then (s.getV y).toNat else (s.getV x).toNat) →
    (∃ t, exec (.shr x y) s = .next t ∧ t = { s with v := t.v } ∧
      (x ≠ 0xF#4 → (t.getV x).toNat = src / 2) ∧ (t.getV 0xF#4).toNat = src % 2 ∧
      ∀ r, r ≠ x → r ≠ 0xF#4 → t.getV r = s.getV r) ∧
    (∃ t, exec (.shl x y) s = .next t ∧ t = { s with v := t.v } ∧
      (x ≠ 0xF#4 → (t.getV x).toNat = src * 2 % 256) ∧ (t.getV 0xF#4).toNat = src / 128 ∧
      ∀ r, r ≠ x → r ≠ 0xF#4 → t.getV r = s.getV r)

/-- `Cxkk`: the step's random byte, whatever it is, masked (decision D11). -/
def Obligations.RandomIsMaskedByTheByte : Prop :=
  ∀ (s : State) (x : Reg) (kk : Byte), ∃ t, exec (.rnd x kk) s = .next t ∧ t = { s with v := t.v } ∧
    t.getV x = s.input.rand &&& kk ∧ (t.getV x).toNat ≤ kk.toNat ∧ ∀ r, r ≠ x → t.getV r = s.getV r

/-! ## Index register and memory transfer -/

/-- `Annn`: `I` is the 12-bit address; nothing else changes. -/
def Obligations.LoadIndexSetsTheAddress : Prop :=
  ∀ (o : OpSet) (s : State) (nnn : Addr),
    decode o (BitVec.ofNat 16 (0xA000 + nnn.toNat)) = some (.ldI nnn) ∧
    ∃ t, exec (.ldI nnn) s = .next t ∧ t = { s with i := t.i } ∧ t.i.toNat = nnn.toNat

/-- `Fx1E` and `Fx29`: both narrow `I` to 12 bits; no flag (decisions D13, D18, D19). -/
def Obligations.IndexArithmeticNarrowsToTwelveBits : Prop :=
  ∀ (s : State) (x : Reg),
    (∃ t, exec (.addI x) s = .next t ∧ t = { s with i := t.i } ∧
      t.i.toNat = (s.i.toNat + (s.getV x).toNat) % 4096) ∧
    (∃ t, exec (.ldF x) s = .next t ∧ t = { s with i := t.i } ∧
      t.i.toNat = (s.params.fontBase.toNat + 5 * ((s.getV x).toNat % 16)) % 4096)

/-- `Fx33`: the three decimal digits at `I`, `I+1`, `I+2`, no other byte, `I` unchanged; or OutOfBounds before any write
(decision D27). -/
def Obligations.DecimalSplitStoresThreeDigitsOrFaults : Prop :=
  ∀ (s : State) (x : Reg), Memory.wf s.mem = true →
    (s.i.toNat + 3 ≤ 4096 → ∃ t, exec (.ldB x) s = .next t ∧ t = { s with mem := t.mem } ∧
      (memByte t.mem s.i.toNat).toNat = (s.getV x).toNat / 100 ∧
      (memByte t.mem (s.i.toNat + 1)).toNat = (s.getV x).toNat / 10 % 10 ∧
      (memByte t.mem (s.i.toNat + 2)).toNat = (s.getV x).toNat % 10 ∧
      ∀ a, a < dataAddr s ∨ dataAddr s + 3 ≤ a → memByte t.mem a = memByte s.mem a) ∧
    (s.i.toNat + 3 > 4096 → ∃ t, exec (.ldB x) s = .next t ∧ t = { s with
      status := .faulted { kind := .outOfBounds, pc := s.pc - 2#16, opcode := some (encode (.ldB x)),
                           detail := .access s.i.toNat 3 }, out := .faulted })

/-- `Fx55`: V[0] to V[x] at `I`, no other byte, then the step of `I` under `Q_LOADSTORE_INC_I`; or OutOfBounds before any
write (decisions D3, D27). -/
def Obligations.BlockStoreWritesTheRunOrFaults : Prop :=
  ∀ (s : State) (x : Reg), Memory.wf s.mem = true →
    (s.i.toNat + x.toNat + 1 ≤ 4096 → ∃ t, exec (.storeRegs x) s = .next t ∧
      t = { s with mem := t.mem, i := t.i } ∧
      t.i.toNat = (if s.params.qLoadstoreIncI = true then (s.i.toNat + x.toNat + 1) % 4096 else s.i.toNat) ∧
      (∀ r : Reg, r.toNat ≤ x.toNat → memByte t.mem (dataAddr s + r.toNat) = s.getV r) ∧
      ∀ a, a < dataAddr s ∨ dataAddr s + x.toNat + 1 ≤ a → memByte t.mem a = memByte s.mem a) ∧
    (s.i.toNat + x.toNat + 1 > 4096 → ∃ t, exec (.storeRegs x) s = .next t ∧ t = { s with
      status := .faulted { kind := .outOfBounds, pc := s.pc - 2#16, opcode := some (encode (.storeRegs x)),
                           detail := .access s.i.toNat (x.toNat + 1) }, out := .faulted })

/-- `Fx65`: the bytes at `I` to V[0] to V[x], VF too when x = F, then the step of `I` under `Q_LOADSTORE_INC_I`; or
OutOfBounds before any write (decisions D3, D27). -/
def Obligations.BlockLoadReadsTheRunOrFaults : Prop :=
  ∀ (s : State) (x : Reg),
    (s.i.toNat + x.toNat + 1 ≤ 4096 → ∃ t, exec (.loadRegs x) s = .next t ∧
      t = { s with v := t.v, i := t.i } ∧
      t.i.toNat = (if s.params.qLoadstoreIncI = true then (s.i.toNat + x.toNat + 1) % 4096 else s.i.toNat) ∧
      ∀ r : Reg, t.getV r = if r.toNat ≤ x.toNat then memByte s.mem (s.i.toNat + r.toNat) else s.getV r) ∧
    (s.i.toNat + x.toNat + 1 > 4096 → ∃ t, exec (.loadRegs x) s = .next t ∧ t = { s with
      status := .faulted { kind := .outOfBounds, pc := s.pc - 2#16, opcode := some (encode (.loadRegs x)),
                           detail := .access s.i.toNat (x.toNat + 1) }, out := .faulted })

/-! ## Display -/

/-- `00E0`: every pixel is 0; nothing else changes. -/
def Obligations.ClearTurnsEveryPixelOff : Prop :=
  ∀ (o : OpSet) (s : State), decode o 0x00E0#16 = some .cls ∧
    ∃ t, exec .cls s = .next t ∧ t = { s with disp := t.disp } ∧ ∀ y x, pixel t.disp y x = false

/-- `draw_sprite`: a set bit's target, wrapped on each axis, is turned over, no other pixel changes, and the collision says
whether a hit pixel was 1. A sprite of the block has at most 15 rows; the statement allows 32. -/
def Obligations.SpriteXorsItsBitsWithWraparound : Prop :=
  ∀ (d : Display) (rows : List Byte) (ox oy : Nat), rows.length ≤ 32 →
    (∀ y x, spriteHits rows ox oy y x → pixel (drawSprite d rows ox oy).1 y x = !pixel d y x) ∧
    (∀ y x, ¬ spriteHits rows ox oy y x → pixel (drawSprite d rows ox oy).1 y x = pixel d y x) ∧
    ((drawSprite d rows ox oy).2 = true ↔ ∃ y x, spriteHits rows ox oy y x ∧ pixel d y x = true)

/-- `Dxyn`: the rows are the bytes at `I`, the origin is read before VF is overwritten by the collision, which is written even
when nothing is hit (n = 0, decision D26); or OutOfBounds before any write. -/
def Obligations.DrawReadsItsRowsAndSetsTheCollision : Prop :=
  ∀ (o : OpSet) (s : State) (x y : Reg) (n : Nibble) (rows : List Byte),
    rows = (List.range n.toNat).map (fun k => memByte s.mem (s.i.toNat + k)) →
    decode o (BitVec.ofNat 16 (0xD000 + x.toNat * 256 + y.toNat * 16 + n.toNat)) = some (.drw x y n) ∧
    (s.i.toNat + n.toNat ≤ 4096 → ∃ t, exec (.drw x y n) s = .next t ∧ t = { s with disp := t.disp, v := t.v } ∧
      (∀ ty tx, spriteHits rows (s.getV x).toNat (s.getV y).toNat ty tx → pixel t.disp ty tx = !pixel s.disp ty tx) ∧
      (∀ ty tx, ¬ spriteHits rows (s.getV x).toNat (s.getV y).toNat ty tx → pixel t.disp ty tx = pixel s.disp ty tx) ∧
      ((∃ ty tx, spriteHits rows (s.getV x).toNat (s.getV y).toNat ty tx ∧ pixel s.disp ty tx = true) →
        t.getV 0xF#4 = 1#8) ∧
      ((¬ ∃ ty tx, spriteHits rows (s.getV x).toNat (s.getV y).toNat ty tx ∧ pixel s.disp ty tx = true) →
        t.getV 0xF#4 = 0#8) ∧
      ∀ r, r ≠ 0xF#4 → t.getV r = s.getV r) ∧
    (s.i.toNat + n.toNat > 4096 → ∃ t, exec (.drw x y n) s = .next t ∧ t = { s with
      status := .faulted { kind := .outOfBounds, pc := s.pc - 2#16, opcode := some (encode (.drw x y n)),
                           detail := .access s.i.toNat n.toNat }, out := .faulted })

/-- Drawing a sprite twice restores the display; on a clear display the second draw collides exactly when the first had set a
pixel (95_test_vectors.md S3, 90_conflicts.md C3). -/
def Obligations.DrawingTwiceRestoresTheDisplay : Prop :=
  ∀ (d : Display) (rows : List Byte) (ox oy : Nat), rows.length ≤ 32 →
    (drawSprite (drawSprite d rows ox oy).1 rows ox oy).1 = d ∧
    (drawSprite displayClear rows ox oy).2 = false ∧
    ((drawSprite (drawSprite displayClear rows ox oy).1 rows ox oy).2 = true ↔
      ∃ y x, pixel (drawSprite displayClear rows ox oy).1 y x = true)

/-! ## Timers and keys -/

/-- `Fx07`, `Fx15`, `Fx18`: each moves one byte between V[x] and a timer and changes nothing else; Fx18 is not a tick and puts
out no beep (decision D14). -/
def Obligations.TimerMovesCopyOneByte : Prop :=
  ∀ (o : OpSet) (s : State) (x : Reg),
    decode o (BitVec.ofNat 16 (0xF007 + x.toNat * 256)) = some (.ldVxDt x) ∧
    decode o (BitVec.ofNat 16 (0xF015 + x.toNat * 256)) = some (.ldDtVx x) ∧
    decode o (BitVec.ofNat 16 (0xF018 + x.toNat * 256)) = some (.ldStVx x) ∧
    (∃ t, exec (.ldVxDt x) s = .next t ∧ t = { s with v := t.v } ∧ t.getV x = s.dt ∧
      ∀ r, r ≠ x → t.getV r = s.getV r) ∧
    (∃ t, exec (.ldDtVx x) s = .next t ∧ t = { s with dt := s.getV x }) ∧
    (∃ t, exec (.ldStVx x) s = .next t ∧ t = { s with st := s.getV x })

/-- `Fx0A`: with a key event V[x] is its code; with none the step is WAITING with `PC` back at the instruction and nothing
else changed (decisions D9, D10; `out` is the model's, log 6). -/
def Obligations.KeyWaitCapturesOrWaits : Prop :=
  ∀ (o : OpSet) (s : State) (x : Reg),
    decode o (BitVec.ofNat 16 (0xF00A + x.toNat * 256)) = some (.ldVxK x) ∧
    (∀ k, s.input.keyEvent = some k → ∃ t, exec (.ldVxK x) s = .next t ∧ t = { s with v := t.v } ∧
      (t.getV x).toNat = k.toNat ∧ ∀ r, r ≠ x → t.getV r = s.getV r) ∧
    (s.input.keyEvent = none → ∃ t, exec (.ldVxK x) s = .next t ∧ t = { s with pc := s.pc - 2#16, out := .waiting })

/-! ## The whole machine -/

/-- Every step, of any agent, from any state that meets the invariant, leads to a state that meets it. -/
def Obligations.EveryStepKeepsTheInvariant : Prop :=
  ∀ s t : State, s.Inv → step s = .next t → t.Inv

/-- The reset state meets the invariant, under any parameters. -/
def Obligations.ResetMeetsTheInvariant : Prop :=
  State.reset.Inv ∧ ∀ p : Params, (State.resetWith p).Inv

/-- Every instruction answers a next state in every state: none stops, none is refused. -/
def Obligations.EveryInstructionAnswersANextState : Prop :=
  ∀ (i : Instr) (s : State), ∃ t, exec i s = .next t

/-- Which instructions may write which part of the state, every part: every other instruction leaves the part unchanged.
`PC` is the advanced one, so the clause speaks of the execute stage. The parts of the last line are the model's own or the
environment's (logs 1, 3, 4, 5, 6, 7). -/
def Obligations.EachPartHasItsOnlyWriters : Prop :=
  ∀ (i : Instr) (s t : State), exec i s = .next t →
    (∀ r, ¬ i.writesV s.params r → t.getV r = s.getV r) ∧
    (i.writesPc = false → t.pc = s.pc) ∧
    (i.mayFault = false → t.status = s.status) ∧
    ((∀ x, i ≠ .ldB x) → (∀ x, i ≠ .storeRegs x) → t.mem = s.mem) ∧
    (i ≠ .cls → (∀ x y n, i ≠ .drw x y n) → t.disp = s.disp) ∧
    ((∀ x, i ≠ .ldDtVx x) → t.dt = s.dt) ∧
    ((∀ x, i ≠ .ldStVx x) → t.st = s.st) ∧
    ((∀ nnn, i ≠ .call nnn) → t.stack = s.stack ∧ (i ≠ .ret → t.sp = s.sp)) ∧
    ((∀ nnn, i ≠ .ldI nnn) → (∀ x, i ≠ .addI x) → (∀ x, i ≠ .ldF x) → (∀ x, i ≠ .storeRegs x) →
      (∀ x, i ≠ .loadRegs x) → t.i = s.i) ∧
    t.params = s.params ∧ t.schedule = s.schedule ∧ t.input = s.input ∧ t.draws = s.draws ∧ t.loadOpen = s.loadOpen ∧
    (i.mayFault = false → (∀ x, i ≠ .ldVxK x) → t.out = s.out)

/-- VF changes only by an instruction that names it as x, or by one that writes it as a flag, or by Fx65 with x = F; without
`Q_LOGIC_CLEARS_VF` the logic instructions are not among the flag writers. -/
def Obligations.FlagRegisterHasItsOnlyWriters : Prop :=
  ∀ (i : Instr) (s t : State), exec i s = .next t → t.getV 0xF#4 ≠ s.getV 0xF#4 →
    (∃ x y, i = .addReg x y ∨ i = .subReg x y ∨ i = .subn x y ∨ i = .shr x y ∨ i = .shl x y ∨ ∃ n, i = .drw x y n) ∨
    (s.params.qLogicClearsVf = true ∧ ∃ x y, i = .orReg x y ∨ i = .andReg x y ∨ i = .xorReg x y) ∨
    (∃ kk y, i = .ldImm 0xF#4 kk ∨ i = .addImm 0xF#4 kk ∨ i = .rnd 0xF#4 kk ∨ i = .ldReg 0xF#4 y ∨
      i = .orReg 0xF#4 y ∨ i = .andReg 0xF#4 y ∨ i = .xorReg 0xF#4 y ∨ i = .ldVxDt 0xF#4 ∨ i = .ldVxK 0xF#4 ∨
      i = .loadRegs 0xF#4)

/-- The step's inputs are read only by the instructions that the spec names: the random byte by Cxkk, the held keys by Ex9E and
ExA1, the key event by Fx0A. -/
def Obligations.InputsAreReadOnlyByTheirInstructions : Prop :=
  ∀ (i : Instr) (s t : State) (inp : CpuInput), exec i s = .next t →
    ((∃ x kk, i = .rnd x kk) → inp.rand = s.input.rand) →
    ((∃ x, i = .skp x ∨ i = .sknp x) → inp.keysDown = s.input.keysDown) →
    ((∃ x, i = .ldVxK x) → inp.keyEvent = s.input.keyEvent) →
    exec i { s with input := inp } = .next { t with input := inp }

/-- No step changes the parameters, and under BASELINE no step but a reset touches the stack. -/
def Obligations.ParametersStayAndBaselineLeavesTheStack : Prop :=
  ∀ s t : State, step s = .next t → t.params = s.params ∧
    (s.params.opset = .baseline → s.schedule.head? ≠ some .hostReset → t.stack = s.stack ∧ t.sp = s.sp)

/-- From an idle state, the next instruction being a jump to itself, a CPU step leaves the whole state vector unchanged, and
the state stays idle (decision D22). -/
def Obligations.IdleStateStaysIdle : Prop :=
  ∀ (s : State) (inp : CpuInput) (rest : List Event), idle s = true → s.schedule = .cpu inp :: rest →
    ∃ t, step s = .next t ∧ s.sameVector t ∧ idle t = true

/-- The model's own loader convention (log 19): after `withFetchWord` the very next step runs the instruction of the word, from
any state whose memory is in canonical form. The word stands at `PC`, or at 0x200 when nothing can be fetched from `PC`; `PC`
is past it, and every other byte of memory is as before. -/
def Obligations.PlacedWordIsTheNextInstruction : Prop :=
  ∀ (s : State) (w base : Nat) (i : Instr), Memory.wf s.mem = true →
    base = (if s.pc.toNat ≤ 0xFFE then s.pc.toNat else 0x200) →
    decode s.params.opset (BitVec.ofNat 16 w) = some i →
    ∃ u, step (s.withFetchWord 16 w) = exec i u ∧ u.v = s.v ∧ u.i = s.i ∧ u.disp = s.disp ∧ u.dt = s.dt ∧ u.st = s.st ∧
      u.sp = s.sp ∧ u.stack = s.stack ∧ u.params = s.params ∧ u.status = .running ∧
      u.pc.toNat = base + 2 ∧
      (memByte u.mem base).toNat = w / 256 % 256 ∧ (memByte u.mem (base + 1)).toNat = w % 256 ∧
      ∀ a, a ≠ base → a ≠ base + 1 → memByte u.mem a = memByte s.mem a
end

