-- ==== Sys2Proof/Laws/Decode.lean ====
section
/-! SUPPORT. What the decoder reads from the words of each format (30_encoding.md R91, R92, R96). -/

namespace Sys2Proof

/-! ## The bits of an encoded word -/

theorem getLsbD_encAnnn (m : Nibble) (a : Addr) (i : Nat) :
    (encAnnn m a).getLsbD i = if i < 12 then a.getLsbD i else m.getLsbD (i - 12) :=
  BitVec.getLsbD_append (x := m) (y := a)

theorem getLsbD_encAxkk (m : Nibble) (x : Reg) (k : Byte) (i : Nat) :
    (encAxkk m x k).getLsbD i =
      if i < 12 then (if i < 8 then k.getLsbD i else x.getLsbD (i - 8)) else m.getLsbD (i - 12) := by
  have h := BitVec.getLsbD_append (x := m) (y := x ++ k) (i := i)
  rw [BitVec.getLsbD_append (x := x) (y := k)] at h
  exact h

theorem getLsbD_encAxyn (m : Nibble) (x y : Reg) (n : Nibble) (i : Nat) :
    (encAxyn m x y n).getLsbD i =
      if i < 12 then (if i < 8 then (if i < 4 then n.getLsbD i else y.getLsbD (i - 4)) else x.getLsbD (i - 8))
      else m.getLsbD (i - 12) := by
  have h := BitVec.getLsbD_append (x := m) (y := x ++ (y ++ n)) (i := i)
  have h2 := BitVec.getLsbD_append (x := x) (y := y ++ n) (i := i)
  rw [BitVec.getLsbD_append (x := y) (y := n)] at h2
  rw [h2] at h
  exact h

/-! ## The value of an encoded word -/

theorem encAnnn_toNat (m : Nibble) (a : Addr) : (encAnnn m a).toNat = m.toNat * 4096 + a.toNat := by
  have h : (encAnnn m a).toNat = m.toNat <<< 12 ||| a.toNat := BitVec.toNat_append m a
  rw [h, ← Nat.shiftLeft_add_eq_or_of_lt a.isLt, Nat.shiftLeft_eq]

theorem encAxkk_toNat (m : Nibble) (x : Reg) (k : Byte) :
    (encAxkk m x k).toNat = m.toNat * 4096 + x.toNat * 256 + k.toNat := by
  have h : (encAxkk m x k).toNat = m.toNat <<< 12 ||| (x ++ k).toNat := BitVec.toNat_append m (x ++ k)
  have h2 : (x ++ k).toNat = x.toNat <<< 8 ||| k.toNat := BitVec.toNat_append x k
  rw [h, ← Nat.shiftLeft_add_eq_or_of_lt (x ++ k).isLt, h2, ← Nat.shiftLeft_add_eq_or_of_lt k.isLt, Nat.shiftLeft_eq,
    Nat.shiftLeft_eq, Nat.add_assoc]

theorem encAxyn_toNat (m : Nibble) (x y : Reg) (n : Nibble) :
    (encAxyn m x y n).toNat = m.toNat * 4096 + x.toNat * 256 + y.toNat * 16 + n.toNat := by
  have h : (encAxyn m x y n).toNat = m.toNat <<< 12 ||| (x ++ (y ++ n)).toNat := BitVec.toNat_append m (x ++ (y ++ n))
  have h2 : (x ++ (y ++ n)).toNat = x.toNat <<< 8 ||| (y ++ n).toNat := BitVec.toNat_append x (y ++ n)
  have h3 : (y ++ n).toNat = y.toNat <<< 4 ||| n.toNat := BitVec.toNat_append y n
  rw [h, ← Nat.shiftLeft_add_eq_or_of_lt (x ++ (y ++ n)).isLt, h2, ← Nat.shiftLeft_add_eq_or_of_lt (y ++ n).isLt, h3,
    ← Nat.shiftLeft_add_eq_or_of_lt n.isLt, Nat.shiftLeft_eq, Nat.shiftLeft_eq, Nat.shiftLeft_eq, Nat.add_assoc, Nat.add_assoc]

/-- A word written as a sum, in format `Annn`. -/
theorem ofNat_eq_encAnnn (m : Nibble) (a : Addr) (c : Nat) (hc : c = m.toNat * 4096) :
    BitVec.ofNat 16 (c + a.toNat) = encAnnn m a := by
  subst hc
  apply BitVec.eq_of_toNat_eq; rw [encAnnn_toNat, BitVec.toNat_ofNat]
  have := m.isLt; have := a.isLt; omega

/-- A word written as a sum, in format `Axkk`. -/
theorem ofNat_eq_encAxkk (m : Nibble) (x : Reg) (k : Byte) (c : Nat) (hc : c = m.toNat * 4096) :
    BitVec.ofNat 16 (c + x.toNat * 256 + k.toNat) = encAxkk m x k := by
  subst hc
  apply BitVec.eq_of_toNat_eq; rw [encAxkk_toNat, BitVec.toNat_ofNat]
  have := m.isLt; have := x.isLt; have := k.isLt; omega

/-- A word written as a sum, in format `Axss`: the sub-opcode is in the constant. -/
theorem ofNat_eq_encAxss (m : Nibble) (x : Reg) (k : Byte) (c : Nat) (hc : c = m.toNat * 4096 + k.toNat) :
    BitVec.ofNat 16 (c + x.toNat * 256) = encAxkk m x k := by
  subst hc
  apply BitVec.eq_of_toNat_eq; rw [encAxkk_toNat, BitVec.toNat_ofNat]
  have := m.isLt; have := x.isLt; have := k.isLt; omega

/-- A word written as a sum, in format `Axyn`. -/
theorem ofNat_eq_encAxyn (m : Nibble) (x y : Reg) (n : Nibble) (c : Nat) (hc : c = m.toNat * 4096) :
    BitVec.ofNat 16 (c + x.toNat * 256 + y.toNat * 16 + n.toNat) = encAxyn m x y n := by
  subst hc
  apply BitVec.eq_of_toNat_eq; rw [encAxyn_toNat, BitVec.toNat_ofNat]
  have := m.isLt; have := x.isLt; have := y.isLt; have := n.isLt; omega

/-- A word written as a sum, in format `Axyn` with the last nibble in the constant. -/
theorem ofNat_eq_encAxyn_const (m : Nibble) (x y : Reg) (n : Nibble) (c : Nat) (hc : c = m.toNat * 4096 + n.toNat) :
    BitVec.ofNat 16 (c + x.toNat * 256 + y.toNat * 16) = encAxyn m x y n := by
  subst hc
  apply BitVec.eq_of_toNat_eq; rw [encAxyn_toNat, BitVec.toNat_ofNat]
  have := m.isLt; have := x.isLt; have := y.isLt; have := n.isLt; omega

/-- The opcode of two bytes is `b0 * 256 + b1` (20_memory.md R66). -/
theorem wordOfBytes_toNat (b0 b1 : Byte) : (wordOfBytes b0 b1).toNat = b0.toNat * 256 + b1.toNat := by
  have h : (wordOfBytes b0 b1).toNat = b0.toNat <<< 8 ||| b1.toNat := BitVec.toNat_append b0 b1
  rw [h, ← Nat.shiftLeft_add_eq_or_of_lt b1.isLt, Nat.shiftLeft_eq]

theorem wordOfBytes_eq_ofNat (b0 b1 : Byte) : wordOfBytes b0 b1 = BitVec.ofNat 16 (b0.toNat * 256 + b1.toNat) := by
  apply BitVec.eq_of_toNat_eq
  rw [wordOfBytes_toNat, BitVec.toNat_ofNat, Nat.mod_eq_of_lt]
  have := b0.isLt; have := b1.isLt; omega

/-- The bytes of a word, put together again, are the word (20_memory.md R66). -/
theorem wordOfBytes_bytesOfWord (op : Word) : wordOfBytes (op.extractLsb' 8 8) (op.extractLsb' 0 8) = op := by
  apply BitVec.eq_of_toNat_eq
  rw [wordOfBytes_toNat]
  simp only [BitVec.extractLsb'_toNat, Nat.shiftRight_eq_div_pow]
  have := op.isLt; omega

/-! ## The fields of an encoded word -/

@[simp] theorem fieldNnn_encAnnn (m : Nibble) (a : Addr) : fieldNnn (encAnnn m a) = a := by
  refine BitVec.eq_of_getLsbD_eq fun i hi => ?_
  simp [fieldNnn, getLsbD_encAnnn, hi]

@[simp] theorem fieldX_encAxkk (m : Nibble) (x : Reg) (k : Byte) : fieldX (encAxkk m x k) = x := by
  refine BitVec.eq_of_getLsbD_eq fun i hi => ?_
  simp [fieldX, getLsbD_encAxkk, hi, show 8 + i < 12 by omega]

@[simp] theorem fieldKk_encAxkk (m : Nibble) (x : Reg) (k : Byte) : fieldKk (encAxkk m x k) = k := by
  refine BitVec.eq_of_getLsbD_eq fun i hi => ?_
  simp [fieldKk, getLsbD_encAxkk, hi, show i < 12 by omega]

@[simp] theorem fieldX_encAxyn (m : Nibble) (x y : Reg) (n : Nibble) : fieldX (encAxyn m x y n) = x := by
  refine BitVec.eq_of_getLsbD_eq fun i hi => ?_
  simp [fieldX, getLsbD_encAxyn, hi, show 8 + i < 12 by omega]

@[simp] theorem fieldY_encAxyn (m : Nibble) (x y : Reg) (n : Nibble) : fieldY (encAxyn m x y n) = y := by
  refine BitVec.eq_of_getLsbD_eq fun i hi => ?_
  simp [fieldY, getLsbD_encAxyn, hi, show 4 + i < 8 by omega, show 4 + i < 12 by omega]

@[simp] theorem fieldN_encAxyn (m : Nibble) (x y : Reg) (n : Nibble) : fieldN (encAxyn m x y n) = n := by
  refine BitVec.eq_of_getLsbD_eq fun i hi => ?_
  simp [fieldN, getLsbD_encAxyn, hi, show i < 8 by omega, show i < 12 by omega]

/-- The major opcode, `op[15:12]` (R91). -/
def fieldMajor (op : Word) : Nibble := op.extractLsb' 12 4

@[simp] theorem fieldMajor_encAnnn (m : Nibble) (a : Addr) : fieldMajor (encAnnn m a) = m := by
  refine BitVec.eq_of_getLsbD_eq fun i hi => ?_
  simp [fieldMajor, getLsbD_encAnnn, hi]

@[simp] theorem fieldMajor_encAxkk (m : Nibble) (x : Reg) (k : Byte) : fieldMajor (encAxkk m x k) = m := by
  refine BitVec.eq_of_getLsbD_eq fun i hi => ?_
  simp [fieldMajor, getLsbD_encAxkk, hi]

@[simp] theorem fieldMajor_encAxyn (m : Nibble) (x y : Reg) (n : Nibble) : fieldMajor (encAxyn m x y n) = m := by
  refine BitVec.eq_of_getLsbD_eq fun i hi => ?_
  simp [fieldMajor, getLsbD_encAxyn, hi]

/-! ## A word from its fields (R91, R92) -/

theorem encAnnn_fields (op : Word) : encAnnn (fieldMajor op) (fieldNnn op) = op := by
  refine BitVec.eq_of_getLsbD_eq fun i hi => ?_
  simp only [getLsbD_encAnnn, fieldMajor, fieldNnn, BitVec.getLsbD_extractLsb']
  split
  · next h => simp [h]
  · next h => simp [show i - 12 < 4 by omega, show 12 + (i - 12) = i by omega]

theorem encAxkk_fields (op : Word) : encAxkk (fieldMajor op) (fieldX op) (fieldKk op) = op := by
  refine BitVec.eq_of_getLsbD_eq fun i hi => ?_
  simp only [getLsbD_encAxkk, fieldMajor, fieldX, fieldKk, BitVec.getLsbD_extractLsb']
  split
  · split
    · next h => simp [h]
    · next h => simp [show i - 8 < 4 by omega, show 8 + (i - 8) = i by omega]
  · next h => simp [show i - 12 < 4 by omega, show 12 + (i - 12) = i by omega]

theorem encAxyn_fields (op : Word) : encAxyn (fieldMajor op) (fieldX op) (fieldY op) (fieldN op) = op := by
  refine BitVec.eq_of_getLsbD_eq fun i hi => ?_
  simp only [getLsbD_encAxyn, fieldMajor, fieldX, fieldY, fieldN, BitVec.getLsbD_extractLsb']
  split
  · split
    · split
      · next h => simp [h]
      · next h => simp [show i - 4 < 4 by omega, show 4 + (i - 4) = i by omega]
    · next h => simp [show i - 8 < 4 by omega, show 8 + (i - 8) = i by omega]
  · next h => simp [show i - 12 < 4 by omega, show 12 + (i - 12) = i by omega]

/-! ## What each mask of R96 compares -/

/-- Two words agree under a mask when they agree at the mask's bits. -/
theorem masked_eq_iff (op m v : Word) : op &&& m = v ↔ ∀ i < 16, (op.getLsbD i && m.getLsbD i) = v.getLsbD i := by
  constructor
  · rintro rfl i -
    simp
  · intro h
    refine BitVec.eq_of_getLsbD_eq fun i hi => ?_
    simpa using h i hi

theorem nibble_eq_iff (a b : Nibble) : a = b ↔ ∀ i < 4, a.getLsbD i = b.getLsbD i :=
  ⟨fun h _ _ => h ▸ rfl, fun h => BitVec.eq_of_getLsbD_eq fun i hi => h i hi⟩

/-- Mask 0xF000 compares the major opcode. -/
theorem masked_F000 (op : Word) (m : Nibble) : op &&& 0xF000#16 = encAnnn m 0#12 ↔ fieldMajor op = m := by
  rw [masked_eq_iff, nibble_eq_iff]
  simp only [getLsbD_encAnnn, fieldMajor, BitVec.getLsbD_extractLsb']
  constructor
  · intro h i hi
    have hc : ∀ j : Fin 4, (0xF000#16).getLsbD (12 + j) = true := by decide
    simpa [hi, hc ⟨i, hi⟩] using h (12 + i) (by omega)
  · intro h i hi
    have hc : ∀ j : Fin 16, (0xF000#16).getLsbD j = decide (12 ≤ j.val) := by decide
    rw [hc ⟨i, hi⟩]
    split
    · next h12 => simp [show ¬ 12 ≤ i by omega]
    · next h12 => simpa [show 12 ≤ i by omega, show i - 12 < 4 by omega, show 12 + (i - 12) = i by omega] using h (i - 12) (by omega)

/-- Mask 0xF00F compares the major opcode and the low nibble. -/
theorem masked_F00F (op : Word) (m n : Nibble) :
    op &&& 0xF00F#16 = encAxyn m 0#4 0#4 n ↔ fieldMajor op = m ∧ fieldN op = n := by
  rw [masked_eq_iff, nibble_eq_iff, nibble_eq_iff]
  simp only [getLsbD_encAxyn, fieldMajor, fieldN, BitVec.getLsbD_extractLsb']
  constructor
  · intro h
    refine ⟨fun i hi => ?_, fun i hi => ?_⟩
    · have hc : ∀ j : Fin 4, (0xF00F#16).getLsbD (12 + j) = true := by decide
      simpa [hi, hc ⟨i, hi⟩] using h (12 + i) (by omega)
    · have hc : ∀ j : Fin 4, (0xF00F#16).getLsbD j = true := by decide
      simpa [hi, hc ⟨i, hi⟩, show i < 12 by omega, show i < 8 by omega] using h i (by omega)
  · rintro ⟨h1, h2⟩ i hi
    have hc : ∀ j : Fin 16, (0xF00F#16).getLsbD j = (decide (12 ≤ j.val) || decide (j.val < 4)) := by decide
    rw [hc ⟨i, hi⟩]
    split
    · next h12 =>
      split
      · next h8 =>
        split
        · next h4 => simpa [h4] using h2 i h4
        · next h4 => simp [h4, show ¬ 12 ≤ i by omega]
      · next h8 => simp [show ¬ i < 4 by omega, show ¬ 12 ≤ i by omega]
    · next h12 => simpa [show 12 ≤ i by omega, show i - 12 < 4 by omega, show 12 + (i - 12) = i by omega] using h1 (i - 12) (by omega)

/-- Mask 0xF0FF compares the major opcode and the low byte. -/
theorem masked_F0FF (op : Word) (m : Nibble) (k : Byte) :
    op &&& 0xF0FF#16 = encAxkk m 0#4 k ↔ fieldMajor op = m ∧ fieldKk op = k := by
  have hb : ∀ a b : Byte, a = b ↔ ∀ i < 8, a.getLsbD i = b.getLsbD i :=
    fun a b => ⟨fun h _ _ => h ▸ rfl, fun h => BitVec.eq_of_getLsbD_eq fun i hi => h i hi⟩
  rw [masked_eq_iff, nibble_eq_iff, hb]
  simp only [getLsbD_encAxkk, fieldMajor, fieldKk, BitVec.getLsbD_extractLsb']
  constructor
  · intro h
    refine ⟨fun i hi => ?_, fun i hi => ?_⟩
    · have hc : ∀ j : Fin 4, (0xF0FF#16).getLsbD (12 + j) = true := by decide
      simpa [hi, hc ⟨i, hi⟩] using h (12 + i) (by omega)
    · have hc : ∀ j : Fin 8, (0xF0FF#16).getLsbD j = true := by decide
      simpa [hi, hc ⟨i, hi⟩, show i < 12 by omega] using h i (by omega)
  · rintro ⟨h1, h2⟩ i hi
    have hc : ∀ j : Fin 16, (0xF0FF#16).getLsbD j = (decide (12 ≤ j.val) || decide (j.val < 8)) := by decide
    rw [hc ⟨i, hi⟩]
    split
    · next h12 =>
      split
      · next h8 => simpa [h8] using h2 i h8
      · next h8 => simp [h8, show ¬ 12 ≤ i by omega]
    · next h12 => simpa [show 12 ≤ i by omega, show i - 12 < 4 by omega, show 12 + (i - 12) = i by omega] using h1 (i - 12) (by omega)

/-- Mask 0xFFFF compares the whole word. -/
theorem masked_FFFF (op : Word) : op &&& 0xFFFF#16 = op := by
  rw [masked_eq_iff]
  intro i hi
  have hc : ∀ j : Fin 16, (0xFFFF#16).getLsbD j = true := by decide
  simp [hc ⟨i, hi⟩]

/-! ## The decoder by major opcode -/

/-- The instruction, when its row is active. -/
def ifActive (o : OpSet) (i : Instr) : Option Instr := if i.activeIn o then some i else none

/-- The same decoder as a table of major opcodes: handier in proofs than the search by masks. -/
def decodeByMajor (o : OpSet) (op : Word) : Option Instr :=
  match (fieldMajor op).toNat with
  | 0x0 => if op = 0x00E0#16 then some .cls else if op = 0x00EE#16 then ifActive o .ret else ifActive o (.sys (fieldNnn op))
  | 0x1 => some (.jp (fieldNnn op))
  | 0x2 => ifActive o (.call (fieldNnn op))
  | 0x3 => some (.seImm (fieldX op) (fieldKk op))
  | 0x4 => some (.sneImm (fieldX op) (fieldKk op))
  | 0x5 => if fieldN op = 0x0#4 then ifActive o (.seReg (fieldX op) (fieldY op)) else none
  | 0x6 => some (.ldImm (fieldX op) (fieldKk op))
  | 0x7 => some (.addImm (fieldX op) (fieldKk op))
  | 0x8 =>
    match (fieldN op).toNat with
    | 0x0 => ifActive o (.ldReg (fieldX op) (fieldY op))
    | 0x1 => ifActive o (.orReg (fieldX op) (fieldY op))
    | 0x2 => ifActive o (.andReg (fieldX op) (fieldY op))
    | 0x3 => ifActive o (.xorReg (fieldX op) (fieldY op))
    | 0x4 => some (.addReg (fieldX op) (fieldY op))
    | 0x5 => ifActive o (.subReg (fieldX op) (fieldY op))
    | 0x6 => ifActive o (.shr (fieldX op) (fieldY op))
    | 0x7 => ifActive o (.subn (fieldX op) (fieldY op))
    | 0xE => ifActive o (.shl (fieldX op) (fieldY op))
    | _ => none
  | 0x9 => if fieldN op = 0x0#4 then ifActive o (.sneReg (fieldX op) (fieldY op)) else none
  | 0xA => some (.ldI (fieldNnn op))
  | 0xB => ifActive o (.jpV0 (fieldNnn op))
  | 0xC => ifActive o (.rnd (fieldX op) (fieldKk op))
  | 0xD => some (.drw (fieldX op) (fieldY op) (fieldN op))
  | 0xE =>
    if fieldKk op = 0x9E#8 then ifActive o (.skp (fieldX op))
    else if fieldKk op = 0xA1#8 then ifActive o (.sknp (fieldX op)) else none
  | _ =>
    if fieldKk op = 0x07#8 then some (.ldVxDt (fieldX op)) else if fieldKk op = 0x0A#8 then some (.ldVxK (fieldX op))
    else if fieldKk op = 0x15#8 then some (.ldDtVx (fieldX op)) else if fieldKk op = 0x18#8 then some (.ldStVx (fieldX op))
    else if fieldKk op = 0x1E#8 then ifActive o (.addI (fieldX op)) else if fieldKk op = 0x29#8 then ifActive o (.ldF (fieldX op))
    else if fieldKk op = 0x33#8 then ifActive o (.ldB (fieldX op)) else if fieldKk op = 0x55#8 then ifActive o (.storeRegs (fieldX op))
    else if fieldKk op = 0x65#8 then ifActive o (.loadRegs (fieldX op)) else none

theorem nibble_cases (a : Nibble) : a = 0x0#4 ∨ a = 0x1#4 ∨ a = 0x2#4 ∨ a = 0x3#4 ∨ a = 0x4#4 ∨ a = 0x5#4 ∨ a = 0x6#4 ∨
    a = 0x7#4 ∨ a = 0x8#4 ∨ a = 0x9#4 ∨ a = 0xA#4 ∨ a = 0xB#4 ∨ a = 0xC#4 ∨ a = 0xD#4 ∨ a = 0xE#4 ∨ a = 0xF#4 := by
  revert a; decide

theorem rowMatches_FFFF (op v : Word) (b : Bool) (f : Word → Instr) :
    rowMatches op ⟨0xFFFF#16, v, b, f⟩ = decide (op = v) := by
  simp [rowMatches, masked_FFFF, Bool.beq_eq_decide_eq]

theorem rowMatches_F000 (op v : Word) (b : Bool) (f : Word → Instr)
    (hv : encAnnn (v.extractLsb' 12 4) 0#12 = v) :
    rowMatches op ⟨0xF000#16, v, b, f⟩ = decide (fieldMajor op = v.extractLsb' 12 4) := by
  rw [Bool.eq_iff_iff, decide_eq_true_iff, ← masked_F000, hv, rowMatches, beq_iff_eq]

theorem rowMatches_F00F (op v : Word) (b : Bool) (f : Word → Instr)
    (hv : encAxyn (v.extractLsb' 12 4) 0#4 0#4 (v.extractLsb' 0 4) = v) :
    rowMatches op ⟨0xF00F#16, v, b, f⟩ = decide (fieldMajor op = v.extractLsb' 12 4 ∧ fieldN op = v.extractLsb' 0 4) := by
  rw [Bool.eq_iff_iff, decide_eq_true_iff, ← masked_F00F, hv, rowMatches, beq_iff_eq]

theorem rowMatches_F0FF (op v : Word) (b : Bool) (f : Word → Instr)
    (hv : encAxkk (v.extractLsb' 12 4) 0#4 (v.extractLsb' 0 8) = v) :
    rowMatches op ⟨0xF0FF#16, v, b, f⟩ = decide (fieldMajor op = v.extractLsb' 12 4 ∧ fieldKk op = v.extractLsb' 0 8) := by
  rw [Bool.eq_iff_iff, decide_eq_true_iff, ← masked_F0FF, hv, rowMatches, beq_iff_eq]

set_option linter.unusedSimpArgs false in
/-- The search by masks of R96 and the table of major opcodes are one decoder. -/
theorem decode_eq_decodeByMajor (o : OpSet) (op : Word) : decode o op = decodeByMajor o op := by
  by_cases h0 : op = 0x00E0#16
  · subst h0; cases o <;> rfl
  by_cases h1 : op = 0x00EE#16
  · subst h1; cases o <;> rfl
  unfold decodeByMajor
  rcases nibble_cases (fieldMajor op) with h | h | h | h | h | h | h | h | h | h | h | h | h | h | h | h <;> cases o <;>
  simp (disch := decide) [decode, opRows, maskOrder, List.findSome?, List.find?, rowActive, rowMatches_FFFF, rowMatches_F000,
    rowMatches_F00F, rowMatches_F0FF, h0, h1, h, ifActive, Instr.activeIn, Instr.inBaseline]
  case neg.inr.inr.inr.inr.inr.inr.inr.inr.inl.baseline =>
    rcases nibble_cases (fieldN op) with hn | hn | hn | hn | hn | hn | hn | hn | hn | hn | hn | hn | hn | hn | hn | hn <;> simp [hn]
  case neg.inr.inr.inr.inr.inr.inr.inr.inr.inl.full =>
    rcases nibble_cases (fieldN op) with hn | hn | hn | hn | hn | hn | hn | hn | hn | hn | hn | hn | hn | hn | hn | hn <;> simp [hn]
  all_goals split_ifs <;> simp [*]

/-- What decodes does so by an active row of the map that matches. -/
theorem decode_some_row {o : OpSet} {op : Word} {i : Instr} (h : decode o op = some i) :
    ∃ r ∈ opRows, rowActive o r = true ∧ rowMatches op r = true ∧ i = r.build op := by
  rw [decode, Option.map_eq_some_iff] at h
  obtain ⟨r, hr, rfl⟩ := h
  obtain ⟨m, -, hm⟩ := List.exists_of_findSome?_eq_some hr
  have hp := List.find?_some hm
  simp only [Bool.and_eq_true] at hp
  exact ⟨r, List.mem_of_find?_eq_some hm, hp.1.2, hp.2, rfl⟩

/-- A row that matches is the row of the word: encoding what it builds gives the word back. -/
theorem encode_build {op : Word} {r : OpRow} (hr : r ∈ opRows) (h : rowMatches op r = true) : encode (r.build op) = op := by
  have ea : ∀ m, fieldMajor op = m → encAnnn m (fieldNnn op) = op := by rintro m rfl; exact encAnnn_fields op
  have eb : ∀ m, fieldMajor op = m → encAxkk m (fieldX op) (fieldKk op) = op := by rintro m rfl; exact encAxkk_fields op
  have ec : ∀ m, fieldMajor op = m → encAxyn m (fieldX op) (fieldY op) (fieldN op) = op := by
    rintro m rfl; exact encAxyn_fields op
  have eb' : ∀ m k, fieldMajor op = m ∧ fieldKk op = k → encAxkk m (fieldX op) k = op := by
    rintro m k ⟨rfl, rfl⟩; exact encAxkk_fields op
  have ec' : ∀ m n, fieldMajor op = m ∧ fieldN op = n → encAxyn m (fieldX op) (fieldY op) n = op := by
    rintro m n ⟨rfl, rfl⟩; exact encAxyn_fields op
  simp only [opRows, List.cons_append, List.nil_append, List.mem_cons, List.not_mem_nil, or_false] at hr
  rcases hr with rfl | rfl | rfl | rfl | rfl | rfl | rfl | rfl | rfl | rfl | rfl | rfl | rfl | rfl | rfl | rfl | rfl | rfl |
    rfl | rfl | rfl | rfl | rfl | rfl | rfl | rfl | rfl | rfl | rfl | rfl | rfl | rfl | rfl | rfl | rfl
  all_goals
    simp (disch := decide) only [rowMatches_FFFF, rowMatches_F000, rowMatches_F00F, rowMatches_F0FF, decide_eq_true_eq,
      BitVec.reduceExtractLsb'] at h
    simp only [encode]
    first
    | rw [h]
    | rw [ea _ h]
    | rw [eb _ h]
    | rw [ec _ h]
    | rw [eb' _ _ h]
    | rw [ec' _ _ h]

end Sys2Proof
end

