-- ==== Sys2Proof/Laws/State.lean ====
section
/-! SUPPORT. One lemma per field per update of the state, so that no proof unfolds a record update. -/

namespace Sys2Proof.Machine

section
variable (s : State) (r : Reg) (b : Byte)
@[simp] theorem State.setV_v : (s.setV r b).v = s.v.set r.toNat b := rfl
@[simp] theorem State.setV_i : (s.setV r b).i = s.i := rfl
@[simp] theorem State.setV_pc : (s.setV r b).pc = s.pc := rfl
@[simp] theorem State.setV_mem : (s.setV r b).mem = s.mem := rfl
@[simp] theorem State.setV_disp : (s.setV r b).disp = s.disp := rfl
@[simp] theorem State.setV_dt : (s.setV r b).dt = s.dt := rfl
@[simp] theorem State.setV_st : (s.setV r b).st = s.st := rfl
@[simp] theorem State.setV_sp : (s.setV r b).sp = s.sp := rfl
@[simp] theorem State.setV_stack : (s.setV r b).stack = s.stack := rfl
@[simp] theorem State.setV_status : (s.setV r b).status = s.status := rfl
@[simp] theorem State.setV_params : (s.setV r b).params = s.params := rfl
@[simp] theorem State.setV_schedule : (s.setV r b).schedule = s.schedule := rfl
@[simp] theorem State.setV_input : (s.setV r b).input = s.input := rfl
@[simp] theorem State.setV_draws : (s.setV r b).draws = s.draws := rfl
@[simp] theorem State.setV_loadOpen : (s.setV r b).loadOpen = s.loadOpen := rfl
@[simp] theorem State.setV_out : (s.setV r b).out = s.out := rfl
end

section
variable (s : State) (a : Word)
@[simp] theorem State.setI_v : (s.setI a).v = s.v := rfl
@[simp] theorem State.setI_i : (s.setI a).i = a &&& 0xFFF#16 := rfl
@[simp] theorem State.setI_pc : (s.setI a).pc = s.pc := rfl
@[simp] theorem State.setI_mem : (s.setI a).mem = s.mem := rfl
@[simp] theorem State.setI_disp : (s.setI a).disp = s.disp := rfl
@[simp] theorem State.setI_dt : (s.setI a).dt = s.dt := rfl
@[simp] theorem State.setI_st : (s.setI a).st = s.st := rfl
@[simp] theorem State.setI_sp : (s.setI a).sp = s.sp := rfl
@[simp] theorem State.setI_stack : (s.setI a).stack = s.stack := rfl
@[simp] theorem State.setI_status : (s.setI a).status = s.status := rfl
@[simp] theorem State.setI_params : (s.setI a).params = s.params := rfl
@[simp] theorem State.setI_schedule : (s.setI a).schedule = s.schedule := rfl
@[simp] theorem State.setI_input : (s.setI a).input = s.input := rfl
@[simp] theorem State.setI_draws : (s.setI a).draws = s.draws := rfl
@[simp] theorem State.setI_loadOpen : (s.setI a).loadOpen = s.loadOpen := rfl
@[simp] theorem State.setI_out : (s.setI a).out = s.out := rfl
end

section
variable (s : State) (a : Word)
@[simp] theorem State.setPc_v : (s.setPc a).v = s.v := rfl
@[simp] theorem State.setPc_i : (s.setPc a).i = s.i := rfl
@[simp] theorem State.setPc_pc : (s.setPc a).pc = a := rfl
@[simp] theorem State.setPc_mem : (s.setPc a).mem = s.mem := rfl
@[simp] theorem State.setPc_disp : (s.setPc a).disp = s.disp := rfl
@[simp] theorem State.setPc_dt : (s.setPc a).dt = s.dt := rfl
@[simp] theorem State.setPc_st : (s.setPc a).st = s.st := rfl
@[simp] theorem State.setPc_sp : (s.setPc a).sp = s.sp := rfl
@[simp] theorem State.setPc_stack : (s.setPc a).stack = s.stack := rfl
@[simp] theorem State.setPc_status : (s.setPc a).status = s.status := rfl
@[simp] theorem State.setPc_params : (s.setPc a).params = s.params := rfl
@[simp] theorem State.setPc_schedule : (s.setPc a).schedule = s.schedule := rfl
@[simp] theorem State.setPc_input : (s.setPc a).input = s.input := rfl
@[simp] theorem State.setPc_draws : (s.setPc a).draws = s.draws := rfl
@[simp] theorem State.setPc_loadOpen : (s.setPc a).loadOpen = s.loadOpen := rfl
@[simp] theorem State.setPc_out : (s.setPc a).out = s.out := rfl
end

section
variable (s : State) (a : Word)
@[simp] theorem State.push_v : (s.push a).v = s.v := rfl
@[simp] theorem State.push_i : (s.push a).i = s.i := rfl
@[simp] theorem State.push_pc : (s.push a).pc = s.pc := rfl
@[simp] theorem State.push_mem : (s.push a).mem = s.mem := rfl
@[simp] theorem State.push_disp : (s.push a).disp = s.disp := rfl
@[simp] theorem State.push_dt : (s.push a).dt = s.dt := rfl
@[simp] theorem State.push_st : (s.push a).st = s.st := rfl
@[simp] theorem State.push_sp : (s.push a).sp = s.sp + 1 := rfl
@[simp] theorem State.push_stack : (s.push a).stack = s.stack.set s.sp a := rfl
@[simp] theorem State.push_status : (s.push a).status = s.status := rfl
@[simp] theorem State.push_params : (s.push a).params = s.params := rfl
@[simp] theorem State.push_schedule : (s.push a).schedule = s.schedule := rfl
@[simp] theorem State.push_input : (s.push a).input = s.input := rfl
@[simp] theorem State.push_draws : (s.push a).draws = s.draws := rfl
@[simp] theorem State.push_loadOpen : (s.push a).loadOpen = s.loadOpen := rfl
@[simp] theorem State.push_out : (s.push a).out = s.out := rfl
end

section
variable (s : State)
@[simp] theorem State.pop_v : s.pop.v = s.v := rfl
@[simp] theorem State.pop_i : s.pop.i = s.i := rfl
@[simp] theorem State.pop_pc : s.pop.pc = s.pc := rfl
@[simp] theorem State.pop_mem : s.pop.mem = s.mem := rfl
@[simp] theorem State.pop_disp : s.pop.disp = s.disp := rfl
@[simp] theorem State.pop_dt : s.pop.dt = s.dt := rfl
@[simp] theorem State.pop_st : s.pop.st = s.st := rfl
@[simp] theorem State.pop_sp : s.pop.sp = s.sp - 1 := rfl
@[simp] theorem State.pop_stack : s.pop.stack = s.stack := rfl
@[simp] theorem State.pop_status : s.pop.status = s.status := rfl
@[simp] theorem State.pop_params : s.pop.params = s.params := rfl
@[simp] theorem State.pop_schedule : s.pop.schedule = s.schedule := rfl
@[simp] theorem State.pop_input : s.pop.input = s.input := rfl
@[simp] theorem State.pop_draws : s.pop.draws = s.draws := rfl
@[simp] theorem State.pop_loadOpen : s.pop.loadOpen = s.loadOpen := rfl
@[simp] theorem State.pop_out : s.pop.out = s.out := rfl
end

section
variable (s : State) (r : FaultRecord)
@[simp] theorem State.takeFault_v : (s.takeFault r).v = s.v := rfl
@[simp] theorem State.takeFault_i : (s.takeFault r).i = s.i := rfl
@[simp] theorem State.takeFault_pc : (s.takeFault r).pc = s.pc := rfl
@[simp] theorem State.takeFault_mem : (s.takeFault r).mem = s.mem := rfl
@[simp] theorem State.takeFault_disp : (s.takeFault r).disp = s.disp := rfl
@[simp] theorem State.takeFault_dt : (s.takeFault r).dt = s.dt := rfl
@[simp] theorem State.takeFault_st : (s.takeFault r).st = s.st := rfl
@[simp] theorem State.takeFault_sp : (s.takeFault r).sp = s.sp := rfl
@[simp] theorem State.takeFault_stack : (s.takeFault r).stack = s.stack := rfl
@[simp] theorem State.takeFault_status : (s.takeFault r).status = .faulted r := rfl
@[simp] theorem State.takeFault_params : (s.takeFault r).params = s.params := rfl
@[simp] theorem State.takeFault_schedule : (s.takeFault r).schedule = s.schedule := rfl
@[simp] theorem State.takeFault_input : (s.takeFault r).input = s.input := rfl
@[simp] theorem State.takeFault_draws : (s.takeFault r).draws = s.draws := rfl
@[simp] theorem State.takeFault_loadOpen : (s.takeFault r).loadOpen = s.loadOpen := rfl
@[simp] theorem State.takeFault_out : (s.takeFault r).out = .faulted := rfl
end

section
variable (s : State)
@[simp] theorem State.wait_v : s.wait.v = s.v := rfl
@[simp] theorem State.wait_i : s.wait.i = s.i := rfl
@[simp] theorem State.wait_pc : s.wait.pc = s.pc - 2#16 := rfl
@[simp] theorem State.wait_mem : s.wait.mem = s.mem := rfl
@[simp] theorem State.wait_disp : s.wait.disp = s.disp := rfl
@[simp] theorem State.wait_dt : s.wait.dt = s.dt := rfl
@[simp] theorem State.wait_st : s.wait.st = s.st := rfl
@[simp] theorem State.wait_sp : s.wait.sp = s.sp := rfl
@[simp] theorem State.wait_stack : s.wait.stack = s.stack := rfl
@[simp] theorem State.wait_status : s.wait.status = s.status := rfl
@[simp] theorem State.wait_params : s.wait.params = s.params := rfl
@[simp] theorem State.wait_schedule : s.wait.schedule = s.schedule := rfl
@[simp] theorem State.wait_input : s.wait.input = s.input := rfl
@[simp] theorem State.wait_draws : s.wait.draws = s.draws := rfl
@[simp] theorem State.wait_loadOpen : s.wait.loadOpen = s.loadOpen := rfl
@[simp] theorem State.wait_out : s.wait.out = .waiting := rfl
end

section
variable (s : State)
@[simp] theorem State.advance_v : s.advance.v = s.v := rfl
@[simp] theorem State.advance_i : s.advance.i = s.i := rfl
@[simp] theorem State.advance_pc : s.advance.pc = s.pc + 2#16 := rfl
@[simp] theorem State.advance_mem : s.advance.mem = s.mem := rfl
@[simp] theorem State.advance_disp : s.advance.disp = s.disp := rfl
@[simp] theorem State.advance_dt : s.advance.dt = s.dt := rfl
@[simp] theorem State.advance_st : s.advance.st = s.st := rfl
@[simp] theorem State.advance_sp : s.advance.sp = s.sp := rfl
@[simp] theorem State.advance_stack : s.advance.stack = s.stack := rfl
@[simp] theorem State.advance_status : s.advance.status = s.status := rfl
@[simp] theorem State.advance_params : s.advance.params = s.params := rfl
@[simp] theorem State.advance_schedule : s.advance.schedule = s.schedule := rfl
@[simp] theorem State.advance_input : s.advance.input = s.input := rfl
@[simp] theorem State.advance_draws : s.advance.draws = s.draws := rfl
@[simp] theorem State.advance_loadOpen : s.advance.loadOpen = s.loadOpen := rfl
@[simp] theorem State.advance_out : s.advance.out = s.out := rfl
end

section
variable (s : State) (inp : CpuInput)
@[simp] theorem State.beginCpu_v : (s.beginCpu inp).v = s.v := rfl
@[simp] theorem State.beginCpu_i : (s.beginCpu inp).i = s.i := rfl
@[simp] theorem State.beginCpu_pc : (s.beginCpu inp).pc = s.pc := rfl
@[simp] theorem State.beginCpu_mem : (s.beginCpu inp).mem = s.mem := rfl
@[simp] theorem State.beginCpu_disp : (s.beginCpu inp).disp = s.disp := rfl
@[simp] theorem State.beginCpu_dt : (s.beginCpu inp).dt = s.dt := rfl
@[simp] theorem State.beginCpu_st : (s.beginCpu inp).st = s.st := rfl
@[simp] theorem State.beginCpu_sp : (s.beginCpu inp).sp = s.sp := rfl
@[simp] theorem State.beginCpu_stack : (s.beginCpu inp).stack = s.stack := rfl
@[simp] theorem State.beginCpu_status : (s.beginCpu inp).status = s.status := rfl
@[simp] theorem State.beginCpu_params : (s.beginCpu inp).params = s.params := rfl
@[simp] theorem State.beginCpu_schedule : (s.beginCpu inp).schedule = s.schedule := rfl
@[simp] theorem State.beginCpu_input : (s.beginCpu inp).input = inp := rfl
@[simp] theorem State.beginCpu_draws : (s.beginCpu inp).draws = s.draws := rfl
@[simp] theorem State.beginCpu_loadOpen : (s.beginCpu inp).loadOpen = false := rfl
@[simp] theorem State.beginCpu_out : (s.beginCpu inp).out = .completed := rfl
end

section
variable (s : State) (c : Bool)
@[simp] theorem State.skipIf_v : (s.skipIf c).v = s.v := by cases c <;> rfl
@[simp] theorem State.skipIf_i : (s.skipIf c).i = s.i := by cases c <;> rfl
@[simp] theorem State.skipIf_pc : (s.skipIf c).pc = if c then s.pc + 2#16 else s.pc := by cases c <;> rfl
@[simp] theorem State.skipIf_mem : (s.skipIf c).mem = s.mem := by cases c <;> rfl
@[simp] theorem State.skipIf_disp : (s.skipIf c).disp = s.disp := by cases c <;> rfl
@[simp] theorem State.skipIf_dt : (s.skipIf c).dt = s.dt := by cases c <;> rfl
@[simp] theorem State.skipIf_st : (s.skipIf c).st = s.st := by cases c <;> rfl
@[simp] theorem State.skipIf_sp : (s.skipIf c).sp = s.sp := by cases c <;> rfl
@[simp] theorem State.skipIf_stack : (s.skipIf c).stack = s.stack := by cases c <;> rfl
@[simp] theorem State.skipIf_status : (s.skipIf c).status = s.status := by cases c <;> rfl
@[simp] theorem State.skipIf_params : (s.skipIf c).params = s.params := by cases c <;> rfl
@[simp] theorem State.skipIf_schedule : (s.skipIf c).schedule = s.schedule := by cases c <;> rfl
@[simp] theorem State.skipIf_input : (s.skipIf c).input = s.input := by cases c <;> rfl
@[simp] theorem State.skipIf_draws : (s.skipIf c).draws = s.draws := by cases c <;> rfl
@[simp] theorem State.skipIf_loadOpen : (s.skipIf c).loadOpen = s.loadOpen := by cases c <;> rfl
@[simp] theorem State.skipIf_out : (s.skipIf c).out = s.out := by cases c <;> rfl
end

section
variable (s : State) (x : Reg) (b f : Byte)
@[simp] theorem State.setResultFlag_v : (s.setResultFlag x b f).v = (s.v.set x.toNat b).set 15 f := rfl
@[simp] theorem State.setResultFlag_i : (s.setResultFlag x b f).i = s.i := rfl
@[simp] theorem State.setResultFlag_pc : (s.setResultFlag x b f).pc = s.pc := rfl
@[simp] theorem State.setResultFlag_mem : (s.setResultFlag x b f).mem = s.mem := rfl
@[simp] theorem State.setResultFlag_disp : (s.setResultFlag x b f).disp = s.disp := rfl
@[simp] theorem State.setResultFlag_dt : (s.setResultFlag x b f).dt = s.dt := rfl
@[simp] theorem State.setResultFlag_st : (s.setResultFlag x b f).st = s.st := rfl
@[simp] theorem State.setResultFlag_sp : (s.setResultFlag x b f).sp = s.sp := rfl
@[simp] theorem State.setResultFlag_stack : (s.setResultFlag x b f).stack = s.stack := rfl
@[simp] theorem State.setResultFlag_status : (s.setResultFlag x b f).status = s.status := rfl
@[simp] theorem State.setResultFlag_params : (s.setResultFlag x b f).params = s.params := rfl
@[simp] theorem State.setResultFlag_schedule : (s.setResultFlag x b f).schedule = s.schedule := rfl
@[simp] theorem State.setResultFlag_input : (s.setResultFlag x b f).input = s.input := rfl
@[simp] theorem State.setResultFlag_draws : (s.setResultFlag x b f).draws = s.draws := rfl
@[simp] theorem State.setResultFlag_loadOpen : (s.setResultFlag x b f).loadOpen = s.loadOpen := rfl
@[simp] theorem State.setResultFlag_out : (s.setResultFlag x b f).out = s.out := rfl
end

section
variable (s : State) (x : Reg) (b : Byte)
@[simp] theorem State.setLogicResult_v : (s.setLogicResult x b).v = if s.params.qLogicClearsVf then (s.v.set x.toNat b).set 15 0#8 else s.v.set x.toNat b := by unfold State.setLogicResult; split <;> rfl
@[simp] theorem State.setLogicResult_i : (s.setLogicResult x b).i = s.i := by unfold State.setLogicResult; split <;> rfl
@[simp] theorem State.setLogicResult_pc : (s.setLogicResult x b).pc = s.pc := by unfold State.setLogicResult; split <;> rfl
@[simp] theorem State.setLogicResult_mem : (s.setLogicResult x b).mem = s.mem := by unfold State.setLogicResult; split <;> rfl
@[simp] theorem State.setLogicResult_disp : (s.setLogicResult x b).disp = s.disp := by unfold State.setLogicResult; split <;> rfl
@[simp] theorem State.setLogicResult_dt : (s.setLogicResult x b).dt = s.dt := by unfold State.setLogicResult; split <;> rfl
@[simp] theorem State.setLogicResult_st : (s.setLogicResult x b).st = s.st := by unfold State.setLogicResult; split <;> rfl
@[simp] theorem State.setLogicResult_sp : (s.setLogicResult x b).sp = s.sp := by unfold State.setLogicResult; split <;> rfl
@[simp] theorem State.setLogicResult_stack : (s.setLogicResult x b).stack = s.stack := by unfold State.setLogicResult; split <;> rfl
@[simp] theorem State.setLogicResult_status : (s.setLogicResult x b).status = s.status := by unfold State.setLogicResult; split <;> rfl
@[simp] theorem State.setLogicResult_params : (s.setLogicResult x b).params = s.params := by unfold State.setLogicResult; split <;> rfl
@[simp] theorem State.setLogicResult_schedule : (s.setLogicResult x b).schedule = s.schedule := by unfold State.setLogicResult; split <;> rfl
@[simp] theorem State.setLogicResult_input : (s.setLogicResult x b).input = s.input := by unfold State.setLogicResult; split <;> rfl
@[simp] theorem State.setLogicResult_draws : (s.setLogicResult x b).draws = s.draws := by unfold State.setLogicResult; split <;> rfl
@[simp] theorem State.setLogicResult_loadOpen : (s.setLogicResult x b).loadOpen = s.loadOpen := by unfold State.setLogicResult; split <;> rfl
@[simp] theorem State.setLogicResult_out : (s.setLogicResult x b).out = s.out := by unfold State.setLogicResult; split <;> rfl
end

section
variable (s : State) (x : Reg)
@[simp] theorem State.advanceI_v : (s.advanceI x).v = s.v := by unfold State.advanceI; split <;> rfl
@[simp] theorem State.advanceI_i : (s.advanceI x).i = if s.params.qLoadstoreIncI then (s.i + x.setWidth 16 + 1#16) &&& 0xFFF#16 else s.i := by unfold State.advanceI; split <;> rfl
@[simp] theorem State.advanceI_pc : (s.advanceI x).pc = s.pc := by unfold State.advanceI; split <;> rfl
@[simp] theorem State.advanceI_mem : (s.advanceI x).mem = s.mem := by unfold State.advanceI; split <;> rfl
@[simp] theorem State.advanceI_disp : (s.advanceI x).disp = s.disp := by unfold State.advanceI; split <;> rfl
@[simp] theorem State.advanceI_dt : (s.advanceI x).dt = s.dt := by unfold State.advanceI; split <;> rfl
@[simp] theorem State.advanceI_st : (s.advanceI x).st = s.st := by unfold State.advanceI; split <;> rfl
@[simp] theorem State.advanceI_sp : (s.advanceI x).sp = s.sp := by unfold State.advanceI; split <;> rfl
@[simp] theorem State.advanceI_stack : (s.advanceI x).stack = s.stack := by unfold State.advanceI; split <;> rfl
@[simp] theorem State.advanceI_status : (s.advanceI x).status = s.status := by unfold State.advanceI; split <;> rfl
@[simp] theorem State.advanceI_params : (s.advanceI x).params = s.params := by unfold State.advanceI; split <;> rfl
@[simp] theorem State.advanceI_schedule : (s.advanceI x).schedule = s.schedule := by unfold State.advanceI; split <;> rfl
@[simp] theorem State.advanceI_input : (s.advanceI x).input = s.input := by unfold State.advanceI; split <;> rfl
@[simp] theorem State.advanceI_draws : (s.advanceI x).draws = s.draws := by unfold State.advanceI; split <;> rfl
@[simp] theorem State.advanceI_loadOpen : (s.advanceI x).loadOpen = s.loadOpen := by unfold State.advanceI; split <;> rfl
@[simp] theorem State.advanceI_out : (s.advanceI x).out = s.out := by unfold State.advanceI; split <;> rfl
end

section
variable (s : State)
@[simp] theorem delayTick_v : (delayTick s).v = s.v := rfl
@[simp] theorem delayTick_i : (delayTick s).i = s.i := rfl
@[simp] theorem delayTick_pc : (delayTick s).pc = s.pc := rfl
@[simp] theorem delayTick_mem : (delayTick s).mem = s.mem := rfl
@[simp] theorem delayTick_disp : (delayTick s).disp = s.disp := rfl
@[simp] theorem delayTick_dt : (delayTick s).dt = tickDown s.dt := rfl
@[simp] theorem delayTick_st : (delayTick s).st = s.st := rfl
@[simp] theorem delayTick_sp : (delayTick s).sp = s.sp := rfl
@[simp] theorem delayTick_stack : (delayTick s).stack = s.stack := rfl
@[simp] theorem delayTick_status : (delayTick s).status = s.status := rfl
@[simp] theorem delayTick_params : (delayTick s).params = s.params := rfl
@[simp] theorem delayTick_schedule : (delayTick s).schedule = s.schedule := rfl
@[simp] theorem delayTick_input : (delayTick s).input = s.input := rfl
@[simp] theorem delayTick_draws : (delayTick s).draws = s.draws := rfl
@[simp] theorem delayTick_loadOpen : (delayTick s).loadOpen = s.loadOpen := rfl
@[simp] theorem delayTick_out : (delayTick s).out = .ticked false := rfl
end

section
variable (s : State)
@[simp] theorem soundTick_v : (soundTick s).v = s.v := rfl
@[simp] theorem soundTick_i : (soundTick s).i = s.i := rfl
@[simp] theorem soundTick_pc : (soundTick s).pc = s.pc := rfl
@[simp] theorem soundTick_mem : (soundTick s).mem = s.mem := rfl
@[simp] theorem soundTick_disp : (soundTick s).disp = s.disp := rfl
@[simp] theorem soundTick_dt : (soundTick s).dt = s.dt := rfl
@[simp] theorem soundTick_st : (soundTick s).st = tickDown s.st := rfl
@[simp] theorem soundTick_sp : (soundTick s).sp = s.sp := rfl
@[simp] theorem soundTick_stack : (soundTick s).stack = s.stack := rfl
@[simp] theorem soundTick_status : (soundTick s).status = s.status := rfl
@[simp] theorem soundTick_params : (soundTick s).params = s.params := rfl
@[simp] theorem soundTick_schedule : (soundTick s).schedule = s.schedule := rfl
@[simp] theorem soundTick_input : (soundTick s).input = s.input := rfl
@[simp] theorem soundTick_draws : (soundTick s).draws = s.draws := rfl
@[simp] theorem soundTick_loadOpen : (soundTick s).loadOpen = s.loadOpen := rfl
@[simp] theorem soundTick_out : (soundTick s).out = .ticked (tickBeeps s.st) := rfl
end

section
variable (s : State)
@[simp] theorem State.resetBlock_v : s.resetBlock.v = Vector.replicate 16 0#8 := rfl
@[simp] theorem State.resetBlock_i : s.resetBlock.i = 0#16 := rfl
@[simp] theorem State.resetBlock_pc : s.resetBlock.pc = 0x200#16 := rfl
@[simp] theorem State.resetBlock_mem : s.resetBlock.mem = [] := rfl
@[simp] theorem State.resetBlock_disp : s.resetBlock.disp = Vector.replicate 32 0#64 := rfl
@[simp] theorem State.resetBlock_dt : s.resetBlock.dt = 0#8 := rfl
@[simp] theorem State.resetBlock_st : s.resetBlock.st = 0#8 := rfl
@[simp] theorem State.resetBlock_sp : s.resetBlock.sp = 0 := rfl
@[simp] theorem State.resetBlock_stack : s.resetBlock.stack = List.replicate s.params.stackDepth 0#16 := rfl
@[simp] theorem State.resetBlock_status : s.resetBlock.status = .running := rfl
@[simp] theorem State.resetBlock_params : s.resetBlock.params = s.params := rfl
@[simp] theorem State.resetBlock_schedule : s.resetBlock.schedule = s.schedule := rfl
@[simp] theorem State.resetBlock_input : s.resetBlock.input = ⟨none, 0#16, 0#8⟩ := rfl
@[simp] theorem State.resetBlock_draws : s.resetBlock.draws = s.draws := rfl
@[simp] theorem State.resetBlock_loadOpen : s.resetBlock.loadOpen = true := rfl
@[simp] theorem State.resetBlock_out : s.resetBlock.out = .none := rfl
end

section
variable (s : State)
@[simp] theorem dropEvent_v : (dropEvent s).v = s.v := by unfold dropEvent; split <;> rfl
@[simp] theorem dropEvent_i : (dropEvent s).i = s.i := by unfold dropEvent; split <;> rfl
@[simp] theorem dropEvent_pc : (dropEvent s).pc = s.pc := by unfold dropEvent; split <;> rfl
@[simp] theorem dropEvent_mem : (dropEvent s).mem = s.mem := by unfold dropEvent; split <;> rfl
@[simp] theorem dropEvent_disp : (dropEvent s).disp = s.disp := by unfold dropEvent; split <;> rfl
@[simp] theorem dropEvent_dt : (dropEvent s).dt = s.dt := by unfold dropEvent; split <;> rfl
@[simp] theorem dropEvent_st : (dropEvent s).st = s.st := by unfold dropEvent; split <;> rfl
@[simp] theorem dropEvent_sp : (dropEvent s).sp = s.sp := by unfold dropEvent; split <;> rfl
@[simp] theorem dropEvent_stack : (dropEvent s).stack = s.stack := by unfold dropEvent; split <;> rfl
@[simp] theorem dropEvent_status : (dropEvent s).status = s.status := by unfold dropEvent; split <;> rfl
@[simp] theorem dropEvent_params : (dropEvent s).params = s.params := by unfold dropEvent; split <;> rfl
@[simp] theorem dropEvent_input : (dropEvent s).input = s.input := by unfold dropEvent; split <;> rfl
@[simp] theorem dropEvent_loadOpen : (dropEvent s).loadOpen = s.loadOpen := by unfold dropEvent; split <;> rfl
@[simp] theorem dropEvent_out : (dropEvent s).out = s.out := by unfold dropEvent; split <;> rfl
@[simp] theorem dropEvent_schedule : (dropEvent s).schedule = s.schedule.tail := by unfold dropEvent; split <;> simp [*]
end

end Sys2Proof.Machine
end

