-- ==== Sys2Proof/Laws/Memory.lean ====
section
/-! SUPPORT. The laws of memory: read after write, what a write leaves alone, and that every operation keeps the canonical
form (20_memory.md R61 to R65). -/

namespace Sys2Proof.Machine

/-- The canonical form as propositions. -/
theorem Memory.wf_iff (m : Memory) : Memory.wf m = true ↔
    (m.Pairwise fun c d => c.1 < d.1) ∧ ∀ c ∈ m, c.1 < Config.memSize ∧ c.2 ≠ memAbsent := by
  simp [Memory.wf, List.all_eq_true]

theorem Memory.wf_nil : Memory.wf [] = true := by decide

/-- An address below every listed one reads as absent. -/
theorem memByte_of_lt {m : Memory} {a : Nat} (h : ∀ c ∈ m, a < c.1) : memByte m a = memAbsent := by
  induction m with
  | nil => rfl
  | cons c m ih =>
    have h1 : a < c.1 := h c (by simp)
    rw [memByte, if_neg (by omega), ih fun d hd => h d (by simp [hd])]

/-- A write leaves every other address alone. -/
theorem memByte_memPut_ne (m : Memory) {a c : Nat} (b : Byte) (h : c ≠ a) :
    memByte (memPut m a b) c = memByte m c := by
  induction m with
  | nil => unfold memPut; split <;> simp [memByte, h]
  | cons d m ih =>
    obtain ⟨e, w⟩ := d
    unfold memPut
    split
    · split
      · rfl
      · rw [memByte, if_neg h]
    · split
      · next h1 h2 => subst h2; split <;> simp [memByte, h]
      · simp only [memByte, ih]

/-- A read after a write to the same address gives the value written. -/
theorem memByte_memPut_self {m : Memory} (hm : Memory.wf m = true) (a : Nat) (b : Byte) :
    memByte (memPut m a b) a = b := by
  rw [Memory.wf_iff] at hm
  obtain ⟨hs, hz⟩ := hm
  induction m with
  | nil => unfold memPut; split <;> simp_all [memByte]
  | cons d m ih =>
    obtain ⟨e, w⟩ := d
    rw [List.pairwise_cons] at hs
    unfold memPut
    split
    · next h1 =>
      split
      · next h2 =>
        rw [h2]
        refine memByte_of_lt fun c hc => ?_
        rcases List.mem_cons.1 hc with rfl | hc
        · exact h1
        · exact lt_trans h1 (hs.1 c hc)
      · simp [memByte]
    · split
      · next h1 h2 =>
        subst h2
        split
        · next h3 => rw [h3]; exact memByte_of_lt fun c hc => hs.1 c hc
        · simp [memByte]
      · next h1 h2 =>
        rw [memByte, if_neg h2]
        exact ih hs.2 fun c hc => hz c (by simp [hc])

/-- The addresses a write leaves listed are the old ones and its own. -/
theorem memPut_mem {m : Memory} {a : Nat} {b : Byte} {c : Host.Cell} (h : c ∈ memPut m a b) :
    c ∈ m ∨ (c = (a, b) ∧ b ≠ memAbsent) := by
  induction m with
  | nil => unfold memPut at h; split at h <;> simp_all
  | cons d m ih =>
    obtain ⟨e, w⟩ := d
    unfold memPut at h
    split at h
    · split at h
      · exact .inl h
      · next h2 => rcases List.mem_cons.1 h with h | h
                   · exact .inr ⟨h, h2⟩
                   · exact .inl h
    · split at h
      · split at h
        · exact .inl (by simp [h])
        · next h2 => rcases List.mem_cons.1 h with h | h
                     · exact .inr ⟨h, h2⟩
                     · exact .inl (by simp [h])
      · rcases List.mem_cons.1 h with h | h
        · exact .inl (by simp [h])
        · exact (ih h).imp (fun h => by simp [h]) id

/-- Storing a byte inside memory keeps the canonical form. -/
theorem memPut_wf {m : Memory} (hm : Memory.wf m = true) {a : Nat} (ha : a < Config.memSize) (b : Byte) :
    Memory.wf (memPut m a b) = true := by
  rw [Memory.wf_iff] at hm ⊢
  refine ⟨?_, fun c hc => ?_⟩
  · obtain ⟨hs, -⟩ := hm
    induction m with
    | nil => unfold memPut; split <;> simp
    | cons d m ih =>
      obtain ⟨e, w⟩ := d
      have hs' := List.pairwise_cons.1 hs
      unfold memPut
      split
      · next h1 =>
        split
        · exact hs
        · refine List.pairwise_cons.2 ⟨fun c hc => ?_, hs⟩
          rcases List.mem_cons.1 hc with rfl | hc
          · exact h1
          · exact lt_trans h1 (hs'.1 c hc)
      · split
        · next h1 h2 =>
          subst h2
          split
          · exact hs'.2
          · exact List.pairwise_cons.2 ⟨hs'.1, hs'.2⟩
        · next h1 h2 =>
          refine List.pairwise_cons.2 ⟨fun c hc => ?_, ih hs'.2⟩
          rcases memPut_mem hc with hc | ⟨rfl, -⟩
          · exact hs'.1 c hc
          · show e < a; omega
  · rcases memPut_mem hc with hc | ⟨rfl, hb⟩
    · exact hm.2 c hc
    · exact ⟨ha, hb⟩

/-- A run of stores leaves the addresses outside it alone. -/
theorem memByte_memPutRun_outside (bs : List Byte) : ∀ (m : Memory) (a : Nat) {c : Nat},
    (c < a ∨ a + bs.length ≤ c) → memByte (memPutRun m a bs) c = memByte m c := by
  induction bs with
  | nil => intros; rfl
  | cons b bs ih =>
    intro m a c h
    simp only [List.length_cons] at h
    rw [memPutRun, ih _ _ (by omega), memByte_memPut_ne _ _ (by omega)]

/-- A run of stores inside memory keeps the canonical form. -/
theorem memPutRun_wf (bs : List Byte) : ∀ {m : Memory} (_ : Memory.wf m = true) {a : Nat}
    (_ : a + bs.length ≤ Config.memSize), Memory.wf (memPutRun m a bs) = true := by
  induction bs with
  | nil => intro m hm a _; exact hm
  | cons b bs ih =>
    intro m hm a h
    simp only [List.length_cons] at h
    exact ih (memPut_wf hm (by omega) b) (by omega)

/-- Reading back a run of stores. -/
theorem memByte_memPutRun_inside (bs : List Byte) : ∀ {m : Memory} (_ : Memory.wf m = true) {a : Nat}
    (_ : a + bs.length ≤ Config.memSize) (k : Nat) (hk : k < bs.length),
    memByte (memPutRun m a bs) (a + k) = bs[k] := by
  induction bs with
  | nil => intro m hm a _ k hk; simp at hk
  | cons b bs ih =>
    intro m hm a h k hk
    simp only [List.length_cons] at h hk
    have hw := memPut_wf hm (show a < Config.memSize by omega) b
    rw [memPutRun]
    cases k with
    | zero =>
      rw [memByte_memPutRun_outside _ _ _ (by omega), Nat.add_zero, memByte_memPut_self hm]
      rfl
    | succ k =>
      have := ih hw (a := a + 1) (by omega) k (by omega)
      rw [show a + (k + 1) = a + 1 + k by omega, this]
      rfl

/-- `MemRead` answers exactly when the whole run is inside memory, and then the bytes in order (R63). -/
theorem memRead_eq_some {m : Memory} {a n : Nat} {bs : List Byte} : memRead m a n = some bs ↔
    a + n ≤ Config.memSize ∧ bs = (List.range n).map fun k => memByte m (a + k) := by
  unfold memRead
  split
  · next h => constructor
              · intro h'; cases h'
              · intro h'; omega
  · next h => simp only [Option.some.injEq, eq_comm (a := bs)]
              constructor
              · intro h'; exact ⟨by omega, h'⟩
              · intro h'; exact h'.2

theorem memRead_eq_none {m : Memory} {a n : Nat} : memRead m a n = none ↔ Config.memSize < a + n := by
  unfold memRead; split <;> simp_all

/-- `MemWrite` answers exactly when the whole run is inside memory (R64). -/
theorem memWrite_eq_some {m m' : Memory} {a : Nat} {bs : List Byte} : memWrite m a bs = some m' ↔
    a + bs.length ≤ Config.memSize ∧ m' = memPutRun m a bs := by
  unfold memWrite
  split
  · next h => constructor
              · intro h'; cases h'
              · intro h'; omega
  · next h => simp only [Option.some.injEq, eq_comm (a := m')]
              constructor
              · intro h'; exact ⟨by omega, h'⟩
              · intro h'; exact h'.2

theorem memWrite_eq_none {m : Memory} {a : Nat} {bs : List Byte} :
    memWrite m a bs = none ↔ Config.memSize < a + bs.length := by
  unfold memWrite; split <;> simp_all

/-- `MemWrite` keeps the canonical form. -/
theorem memWrite_wf {m m' : Memory} (hm : Memory.wf m = true) {a : Nat} {bs : List Byte}
    (h : memWrite m a bs = some m') : Memory.wf m' = true := by
  obtain ⟨h1, rfl⟩ := memWrite_eq_some.1 h
  exact memPutRun_wf bs hm h1

/-- `write_byte` keeps the canonical form. -/
theorem writeByte_wf {m m' : Memory} (hm : Memory.wf m = true) {a : Nat} {b : Byte}
    (h : writeByte m a b = some m') : Memory.wf m' = true := by
  unfold writeByte at h
  split at h
  · next ha => cases h; exact memPut_wf hm ha b
  · cases h

end Sys2Proof.Machine
end

