-- ==== Sys2Proof/Laws/Registers.lean ====
section
/-! SUPPORT. What the register operations do, said once (10_state.md R21 to R23, 42_register_alu.md R183). -/

namespace Sys2Proof.Machine

theorem Reg.toNat_lt (r : Reg) : r.toNat < 16 := r.isLt

/-- Reading a register after a write (10_state.md R23). -/
theorem State.getV_setV (s : State) (r : Reg) (b : Byte) (q : Reg) :
    (s.setV r b).getV q = if q = r then b else s.getV q := by
  simp only [State.getV, State.setV_v, Vector.getElem_set, ← BitVec.toNat_inj, eq_comm]

/-- Two states with one register file read alike. -/
theorem State.getV_congr {s t : State} (h : t.v = s.v) (q : Reg) : t.getV q = s.getV q := by
  simp only [State.getV, h]

/-- A result and its flag: the flag is in VF, also when the result's register is VF (R183). -/
theorem State.getV_setResultFlag (s : State) (x : Reg) (b f : Byte) (q : Reg) :
    (s.setResultFlag x b f).getV q = if q = vf then f else if q = x then b else s.getV q := by
  simp only [State.setResultFlag, State.getV_setV]

/-- A logic result and, under `Q_LOGIC_CLEARS_VF`, the cleared flag (R173 to R175). -/
theorem State.getV_setLogicResult (s : State) (x : Reg) (b : Byte) (q : Reg) :
    (s.setLogicResult x b).getV q =
      if s.params.qLogicClearsVf = true ∧ q = vf then 0#8 else if q = x then b else s.getV q := by
  unfold State.setLogicResult
  split <;> simp_all [State.getV_setV, State.getV_setResultFlag]

/-- A run of register writes (43_index_memory.md R225). -/
theorem regsPutRun_get (bs : List Byte) : ∀ (v : RegFile) (k j : Nat) (hj : j < 16),
    (regsPutRun v k bs)[j] = if h : k ≤ j ∧ j < k + bs.length then bs[j - k] else v[j] := by
  induction bs with
  | nil => intro v k j hj; simp [regsPutRun]
  | cons b bs ih =>
    intro v k j hj
    rw [regsPutRun, ih]
    by_cases h1 : k + 1 ≤ j ∧ j < k + 1 + bs.length
    · have h2 : k ≤ j ∧ j < k + (b :: bs).length := by simp; omega
      obtain ⟨m, hm⟩ : ∃ m, j - k = m + 1 := ⟨j - k - 1, by omega⟩
      have hm' : j - (k + 1) = m := by omega
      simp only [h1, h2, and_self, ↓reduceDIte, hm, hm', List.getElem_cons_succ]
    · by_cases h3 : k = j
      · subst h3; simp
      · have h2 : ¬(k ≤ j ∧ j < k + (b :: bs).length) := by simp; omega
        simp only [h1, h2, ↓reduceDIte]
        exact Vector.getElem_setIfInBounds_ne hj h3

theorem State.regsUpTo_length (s : State) (x : Reg) : (s.regsUpTo x).length = x.toNat + 1 := by
  have := Reg.toNat_lt x
  simp [State.regsUpTo]; omega

/-- The bytes Fx55 stores: byte k is `V[k]` (43_index_memory.md R224). -/
theorem State.regsUpTo_get (s : State) (x r : Reg) (h : r.toNat < (s.regsUpTo x).length) :
    (s.regsUpTo x)[r.toNat] = s.getV r := by
  simp [State.regsUpTo, State.getV]

/-! ## What the operand forms and the flag computations give, as numbers -/

/-- The mask of every write to `I` (10_state.md R26). -/
theorem and_0xFFF_toNat (w : Word) : (w &&& 0xFFF#16).toNat = w.toNat % 4096 := by
  rw [BitVec.toNat_and]; exact Nat.and_two_pow_sub_one_eq_mod w.toNat 12

theorem sumByte_toNat (a b : Byte) : (sumByte a b).toNat = (a.toNat + b.toNat) % 256 := by simp [sumByte]

theorem diffByte_toNat (a b : Byte) : (diffByte a b).toNat = (a.toNat + 256 - b.toNat) % 256 := by
  have := a.isLt; have := b.isLt
  simp [diffByte, BitVec.toNat_ofInt]; omega

theorem flagByte_toNat (c : Bool) : (flagByte c).toNat = if c = true then 1 else 0 := by cases c <;> rfl

theorem tickDown_toNat (t : Byte) : (tickDown t).toNat = t.toNat - 1 := by
  unfold tickDown; split
  · next h => rw [h]; rfl
  · next h =>
    have : t.toNat ≠ 0 := fun e => h (BitVec.eq_of_toNat_eq e)
    have := t.isLt
    rw [BitVec.toNat_sub]; simp; omega

/-- A skip writes `PC` and nothing else (41_control_flow.md R130). -/
theorem State.skipIf_eq (s : State) (c : Bool) (p : Prop) [Decidable p] (h : c = true ↔ p) :
    s.skipIf c = { s with pc := if p then s.pc + 2#16 else s.pc } := by
  unfold State.skipIf
  by_cases hp : p
  · simp [hp, h]; rfl
  · simp [hp, h]

/-- The step of `I` writes `I` and nothing else (43_index_memory.md R224, R225). -/
theorem State.advanceI_eq (s : State) (x : Reg) : s.advanceI x = { s with i := (s.advanceI x).i } := by
  unfold State.advanceI; split <;> rfl

theorem State.advanceI_i_toNat (s : State) (x : Reg) : (s.advanceI x).i.toNat =
    if s.params.qLoadstoreIncI = true then (s.i.toNat + x.toNat + 1) % 4096 else s.i.toNat := by
  unfold State.advanceI; split
  · rw [State.setI_i, and_0xFFF_toNat]; simp
  · rfl

end Sys2Proof.Machine
end

