-- ==== Sys2Proof/Laws/Display.lean ====
section
/-! SUPPORT. What the blitter does to each pixel (44_display.md R260, R261). -/

namespace Sys2Proof.Machine

/-- Two displays with the same pixels are the same display. -/
theorem display_ext {d e : Display} (h : ∀ y x, pixel d y x = pixel e y x) : d = e := by
  refine Vector.ext fun y hy => ?_
  refine BitVec.eq_of_getLsbD_eq fun x hx => ?_
  exact h ⟨y, hy⟩ ⟨x, hx⟩

/-- Every pixel of the cleared display is 0 (R260). -/
@[simp] theorem pixel_displayClear (y : Fin 32) (x : Fin 64) : pixel displayClear y x = false := by
  simp [pixel, displayClear]

/-- Flipping a pixel turns it over and leaves every other pixel alone. -/
theorem pixel_pixelFlip (d : Display) (y : Fin 32) (x : Fin 64) (y' : Fin 32) (x' : Fin 64) :
    pixel (pixelFlip d y x) y' x' = (pixel d y' x' ^^ decide (y' = y ∧ x' = x)) := by
  unfold pixel pixelFlip
  rw [Vector.getElem_set]
  by_cases hy : y = y'
  · subst hy
    by_cases hx : x = x'
    · subst hx; simp
    · have : x.val ≠ x'.val := fun h => hx (Fin.ext h)
      simp [this.symm, Ne.symm hx]
  · have : y.val ≠ y'.val := fun h => hy (Fin.ext h)
    simp [this, Ne.symm hy]

/-- The columns of a sprite row have different targets (44_display.md R264). -/
theorem targetX_inj {ox c d : Nat} (hc : c < 8) (hd : d < 8) (h : targetX ox c = targetX ox d) : c = d := by
  have := congrArg Fin.val h
  simp only [targetX, Fin.ofNat_eq_cast, Fin.val_natCast] at this
  omega

/-- The rows of a sprite have different targets (44_display.md R264). -/
theorem targetY_inj {oy r q : Nat} (hr : r < 32) (hq : q < 32) (h : targetY oy r = targetY oy q) : r = q := by
  have := congrArg Fin.val h
  simp only [targetY, Fin.ofNat_eq_cast, Fin.val_natCast] at this
  omega

/-- Some set bit among the columns `cs` of a row has the target column `x`. -/
def rowHits (row : Byte) (ox : Nat) (cs : List Nat) (x : Fin 64) : Prop :=
  ∃ c ∈ cs, spriteBit row c = true ∧ targetX ox c = x

theorem rowHits_cons (row : Byte) (ox c : Nat) (cs : List Nat) (x : Fin 64) :
    rowHits row ox (c :: cs) x ↔ (spriteBit row c = true ∧ targetX ox c = x) ∨ rowHits row ox cs x := by
  simp [rowHits]

open Classical in
/-- A run of columns flips exactly the pixels it hits, and reports whether one of them was set. -/
theorem drawBits_spec (row : Byte) (ox : Nat) (ty : Fin 32) : ∀ (cs : List Nat) (_ : cs.Nodup) (_ : ∀ c ∈ cs, c < 8)
    (acc : Display × Bool),
    (∀ y x, pixel (cs.foldl (drawBit row ox ty) acc).1 y x = (pixel acc.1 y x ^^ decide (y = ty ∧ rowHits row ox cs x))) ∧
    ((cs.foldl (drawBit row ox ty) acc).2 = true ↔
      acc.2 = true ∨ ∃ x, rowHits row ox cs x ∧ pixel acc.1 ty x = true) := by
  intro cs
  induction cs with
  | nil => intro _ _ acc; simp [rowHits]
  | cons c cs ih =>
    intro hn hc acc
    rw [List.nodup_cons] at hn
    obtain ⟨ih1, ih2⟩ := ih hn.2 (fun d hd => hc d (by simp [hd])) (drawBit row ox ty acc c)
    simp only [List.foldl_cons, ih1, ih2, rowHits_cons]
    by_cases hb : spriteBit row c = true
    · have hd : drawBit row ox ty acc c =
          (pixelFlip acc.1 ty (targetX ox c), acc.2 || pixel acc.1 ty (targetX ox c)) := if_pos hb
      have hx : ¬ rowHits row ox cs (targetX ox c) := by
        rintro ⟨d, hd, -, he⟩
        exact hn.1 (targetX_inj (hc d (by simp [hd])) (hc c (by simp)) he ▸ hd)
      refine ⟨fun y x => ?_, ?_⟩
      · rw [hd]
        simp only [pixel_pixelFlip]
        by_cases hy : y = ty
        · by_cases he : x = targetX ox c
          · subst he; simp [hy, hb, hx]
          · simp [hy, hb, he, Ne.symm he]
        · simp [hy]
      · rw [hd]
        simp only [Bool.or_eq_true, pixel_pixelFlip]
        constructor
        · rintro ((h | h) | ⟨x, h, hp⟩)
          · exact .inl h
          · exact .inr ⟨_, .inl ⟨hb, rfl⟩, h⟩
          · have : x ≠ targetX ox c := fun he => hx (he ▸ h)
            exact .inr ⟨x, .inr h, by simpa [this] using hp⟩
        · rintro (h | ⟨x, ⟨-, rfl⟩ | h, hp⟩)
          · exact .inl (.inl h)
          · exact .inl (.inr hp)
          · have : x ≠ targetX ox c := fun he => hx (he ▸ h)
            exact .inr ⟨x, h, by simpa [this] using hp⟩
    · have hd : drawBit row ox ty acc c = acc := if_neg hb
      rw [hd]
      simp [hb]

/-- Some set bit of the sprite rows, the first of them numbered `r`, has the target pixel `(x, y)` (44_display.md R261). -/
def spriteHitsFrom (ox oy : Nat) (rows : List Byte) (r : Nat) (y : Fin 32) (x : Fin 64) : Prop :=
  ∃ k, ∃ h : k < rows.length, targetY oy (r + k) = y ∧ rowHits rows[k] ox [0, 1, 2, 3, 4, 5, 6, 7] x

theorem spriteHitsFrom_cons (ox oy : Nat) (row : Byte) (rows : List Byte) (r : Nat) (y : Fin 32) (x : Fin 64) :
    spriteHitsFrom ox oy (row :: rows) r y x ↔
      (y = targetY oy r ∧ rowHits row ox [0, 1, 2, 3, 4, 5, 6, 7] x) ∨ spriteHitsFrom ox oy rows (r + 1) y x := by
  constructor
  · rintro ⟨k, hk, ht, hr⟩
    cases k with
    | zero => exact .inl ⟨ht.symm, hr⟩
    | succ k => exact .inr ⟨k, by simpa using hk, by rw [← ht]; congr 1; omega, hr⟩
  · rintro (⟨rfl, hr⟩ | ⟨k, hk, ht, hr⟩)
    · exact ⟨0, by simp, rfl, hr⟩
    · exact ⟨k + 1, by simpa using hk, by rw [← ht]; congr 1; omega, hr⟩

open Classical in
/-- A run of sprite rows flips exactly the pixels it hits, and reports whether one of them was set. -/
theorem drawRows_spec (ox oy : Nat) : ∀ (rows : List Byte) (r : Nat) (_ : r + rows.length ≤ 32) (acc : Display × Bool),
    (∀ y x, pixel (drawRows ox oy rows r acc).1 y x =
      (pixel acc.1 y x ^^ decide (spriteHitsFrom ox oy rows r y x))) ∧
    ((drawRows ox oy rows r acc).2 = true ↔
      acc.2 = true ∨ ∃ y x, spriteHitsFrom ox oy rows r y x ∧ pixel acc.1 y x = true) := by
  intro rows
  induction rows with
  | nil => intro r _ acc; simp [drawRows, spriteHitsFrom]
  | cons row rows ih =>
    intro r hr acc
    simp only [List.length_cons] at hr
    obtain ⟨ih1, ih2⟩ := ih (r + 1) (by omega) (drawRow row ox (targetY oy r) acc)
    obtain ⟨h1, h2⟩ := drawBits_spec row ox (targetY oy r) [0, 1, 2, 3, 4, 5, 6, 7] (by decide) (by decide) acc
    have hlate : ∀ x, ¬ spriteHitsFrom ox oy rows (r + 1) (targetY oy r) x := by
      rintro x ⟨k, hk, ht, -⟩
      have := targetY_inj (by omega) (by omega) ht
      omega
    simp only [drawRows, drawRow] at ih1 ih2 ⊢
    refine ⟨fun y x => ?_, ?_⟩
    · rw [ih1, h1]
      simp only [spriteHitsFrom_cons]
      by_cases hy : y = targetY oy r
      · subst hy; simp [hlate]
      · simp [hy]
    · rw [ih2, h2]
      simp only [spriteHitsFrom_cons]
      constructor
      · rintro ((h | ⟨x, h, hp⟩) | ⟨y, x, h, hp⟩)
        · exact .inl h
        · exact .inr ⟨_, x, .inl ⟨rfl, h⟩, hp⟩
        · have hy : y ≠ targetY oy r := fun he => hlate x (he ▸ h)
          rw [h1] at hp
          exact .inr ⟨y, x, .inr h, by simpa [hy] using hp⟩
      · rintro (h | ⟨y, x, ⟨rfl, h⟩ | h, hp⟩)
        · exact .inl (.inl h)
        · exact .inl (.inr ⟨x, h, hp⟩)
        · have hy : y ≠ targetY oy r := fun he => hlate x (he ▸ h)
          exact .inr ⟨y, x, h, by rw [h1]; simpa [hy] using hp⟩

end Sys2Proof.Machine
end

