-- ==== Sys2Proof/Laws/PerInstr.lean ====
section
/-! SUPPORT. Family RowMatch: the word of every instruction matches its own row of the opcode map (30_encoding.md R97). -/

namespace Sys2Proof.Laws.RowMatch

/-- The mask and the value of the row of `i` (30_encoding.md R97). -/
def row : Instr → Word × Word
  | .cls => (0xFFFF#16, 0x00E0#16)
  | .ret => (0xFFFF#16, 0x00EE#16)
  | .sys _ => (0xF000#16, 0x0000#16)
  | .jp _ => (0xF000#16, 0x1000#16)
  | .call _ => (0xF000#16, 0x2000#16)
  | .seImm _ _ => (0xF000#16, 0x3000#16)
  | .sneImm _ _ => (0xF000#16, 0x4000#16)
  | .seReg _ _ => (0xF00F#16, 0x5000#16)
  | .ldImm _ _ => (0xF000#16, 0x6000#16)
  | .addImm _ _ => (0xF000#16, 0x7000#16)
  | .ldReg _ _ => (0xF00F#16, 0x8000#16)
  | .orReg _ _ => (0xF00F#16, 0x8001#16)
  | .andReg _ _ => (0xF00F#16, 0x8002#16)
  | .xorReg _ _ => (0xF00F#16, 0x8003#16)
  | .addReg _ _ => (0xF00F#16, 0x8004#16)
  | .subReg _ _ => (0xF00F#16, 0x8005#16)
  | .shr _ _ => (0xF00F#16, 0x8006#16)
  | .subn _ _ => (0xF00F#16, 0x8007#16)
  | .shl _ _ => (0xF00F#16, 0x800E#16)
  | .sneReg _ _ => (0xF00F#16, 0x9000#16)
  | .ldI _ => (0xF000#16, 0xA000#16)
  | .jpV0 _ => (0xF000#16, 0xB000#16)
  | .rnd _ _ => (0xF000#16, 0xC000#16)
  | .drw _ _ _ => (0xF000#16, 0xD000#16)
  | .skp _ => (0xF0FF#16, 0xE09E#16)
  | .sknp _ => (0xF0FF#16, 0xE0A1#16)
  | .ldVxDt _ => (0xF0FF#16, 0xF007#16)
  | .ldVxK _ => (0xF0FF#16, 0xF00A#16)
  | .ldDtVx _ => (0xF0FF#16, 0xF015#16)
  | .ldStVx _ => (0xF0FF#16, 0xF018#16)
  | .addI _ => (0xF0FF#16, 0xF01E#16)
  | .ldF _ => (0xF0FF#16, 0xF029#16)
  | .ldB _ => (0xF0FF#16, 0xF033#16)
  | .storeRegs _ => (0xF0FF#16, 0xF055#16)
  | .loadRegs _ => (0xF0FF#16, 0xF065#16)

/-- `op & mask = match` for the word of `i` and the row of `i`. -/
def Statement (i : Instr) : Prop := encode i &&& (row i).1 = (row i).2

theorem annn (m : Nibble) (a : Addr) : encAnnn m a &&& 0xF000#16 = encAnnn m 0#12 := by
  rw [masked_F000, fieldMajor_encAnnn]

theorem axkk (m : Nibble) (x : Reg) (k : Byte) : encAxkk m x k &&& 0xF000#16 = encAnnn m 0#12 := by
  rw [masked_F000, fieldMajor_encAxkk]

theorem axyn (m : Nibble) (x y : Reg) (n : Nibble) : encAxyn m x y n &&& 0xF000#16 = encAnnn m 0#12 := by
  rw [masked_F000, fieldMajor_encAxyn]

theorem axy_sub (m : Nibble) (x y : Reg) (n : Nibble) : encAxyn m x y n &&& 0xF00F#16 = encAxyn m 0#4 0#4 n := by
  rw [masked_F00F, fieldMajor_encAxyn, fieldN_encAxyn]; exact ⟨rfl, rfl⟩

theorem ax_sub (m : Nibble) (x : Reg) (k : Byte) : encAxkk m x k &&& 0xF0FF#16 = encAxkk m 0#4 k := by
  rw [masked_F0FF, fieldMajor_encAxkk, fieldKk_encAxkk]; exact ⟨rfl, rfl⟩

theorem cls : Statement .cls := by unfold Statement; decide
theorem ret : Statement .ret := by unfold Statement; decide
theorem sys (nnn : Addr) : Statement (.sys nnn) := annn 0x0#4 nnn
theorem jp (nnn : Addr) : Statement (.jp nnn) := annn 0x1#4 nnn
theorem call (nnn : Addr) : Statement (.call nnn) := annn 0x2#4 nnn
theorem seImm (x : Reg) (kk : Byte) : Statement (.seImm x kk) := axkk 0x3#4 x kk
theorem sneImm (x : Reg) (kk : Byte) : Statement (.sneImm x kk) := axkk 0x4#4 x kk
theorem seReg (x y : Reg) : Statement (.seReg x y) := axy_sub 0x5#4 x y 0x0#4
theorem ldImm (x : Reg) (kk : Byte) : Statement (.ldImm x kk) := axkk 0x6#4 x kk
theorem addImm (x : Reg) (kk : Byte) : Statement (.addImm x kk) := axkk 0x7#4 x kk
theorem ldReg (x y : Reg) : Statement (.ldReg x y) := axy_sub 0x8#4 x y 0x0#4
theorem orReg (x y : Reg) : Statement (.orReg x y) := axy_sub 0x8#4 x y 0x1#4
theorem andReg (x y : Reg) : Statement (.andReg x y) := axy_sub 0x8#4 x y 0x2#4
theorem xorReg (x y : Reg) : Statement (.xorReg x y) := axy_sub 0x8#4 x y 0x3#4
theorem addReg (x y : Reg) : Statement (.addReg x y) := axy_sub 0x8#4 x y 0x4#4
theorem subReg (x y : Reg) : Statement (.subReg x y) := axy_sub 0x8#4 x y 0x5#4
theorem shr (x y : Reg) : Statement (.shr x y) := axy_sub 0x8#4 x y 0x6#4
theorem subn (x y : Reg) : Statement (.subn x y) := axy_sub 0x8#4 x y 0x7#4
theorem shl (x y : Reg) : Statement (.shl x y) := axy_sub 0x8#4 x y 0xE#4
theorem sneReg (x y : Reg) : Statement (.sneReg x y) := axy_sub 0x9#4 x y 0x0#4
theorem ldI (nnn : Addr) : Statement (.ldI nnn) := annn 0xA#4 nnn
theorem jpV0 (nnn : Addr) : Statement (.jpV0 nnn) := annn 0xB#4 nnn
theorem rnd (x : Reg) (kk : Byte) : Statement (.rnd x kk) := axkk 0xC#4 x kk
theorem drw (x y : Reg) (n : Nibble) : Statement (.drw x y n) := axyn 0xD#4 x y n
theorem skp (x : Reg) : Statement (.skp x) := ax_sub 0xE#4 x 0x9E#8
theorem sknp (x : Reg) : Statement (.sknp x) := ax_sub 0xE#4 x 0xA1#8
theorem ldVxDt (x : Reg) : Statement (.ldVxDt x) := ax_sub 0xF#4 x 0x07#8
theorem ldVxK (x : Reg) : Statement (.ldVxK x) := ax_sub 0xF#4 x 0x0A#8
theorem ldDtVx (x : Reg) : Statement (.ldDtVx x) := ax_sub 0xF#4 x 0x15#8
theorem ldStVx (x : Reg) : Statement (.ldStVx x) := ax_sub 0xF#4 x 0x18#8
theorem addI (x : Reg) : Statement (.addI x) := ax_sub 0xF#4 x 0x1E#8
theorem ldF (x : Reg) : Statement (.ldF x) := ax_sub 0xF#4 x 0x29#8
theorem ldB (x : Reg) : Statement (.ldB x) := ax_sub 0xF#4 x 0x33#8
theorem storeRegs (x : Reg) : Statement (.storeRegs x) := ax_sub 0xF#4 x 0x55#8
theorem loadRegs (x : Reg) : Statement (.loadRegs x) := ax_sub 0xF#4 x 0x65#8

end Sys2Proof.Laws.RowMatch
end

