-- ==== Sys2Proof/Laws/Step.lean ====
section
/-! SUPPORT. What a step can do, said once: the agent that moves, the CPU cycle, and the two-way instructions. -/

namespace Sys2Proof.Machine

/-! ## Which agent moves -/

theorem step_scheduled {s : State} {e : Event} {rest : List Event} (h : s.schedule = e :: rest) :
    step s = runEvent e { s with schedule := rest } := by
  simp [step, nextEvent, dropEvent, h]

theorem step_unscheduled {s : State} (h : s.schedule = []) :
    step s = runEvent (.cpu (freeInput s.draws)) { s with draws := s.draws + 1 } := by
  simp [step, nextEvent, dropEvent, h]

/-- The step after `withCpuNext` is the CPU's; what it drops is the schedule's head and a free draw, nothing else. -/
theorem nextEvent_withCpuNext (s : State) : ∃ inp, nextEvent s.withCpuNext = .cpu inp ∧ dropEvent s.withCpuNext =
    { s with schedule := (dropEvent s.withCpuNext).schedule, draws := (dropEvent s.withCpuNext).draws } := by
  unfold State.withCpuNext; split
  · next h => exact ⟨freeInput s.draws, by simp [nextEvent, h], by simp only [dropEvent, h]⟩
  · next h => exact ⟨_, by simp only [nextEvent, h]; rfl, by simp [dropEvent, h]⟩
  · exact ⟨s.input, by simp [nextEvent], by simp [dropEvent]⟩

theorem whileRunning_running {s : State} (h : s.status = .running) (k : State → Host.Outcome State Fault Refusal) :
    whileRunning s k = k s := by
  simp [whileRunning, h]

theorem whileRunning_faulted {s : State} {r : FaultRecord} (h : s.status = .faulted r)
    (k : State → Host.Outcome State Fault Refusal) : whileRunning s k = .fault (.halted r) := by
  simp [whileRunning, h]

theorem whileRunning_next {s t : State} {k : State → Host.Outcome State Fault Refusal} (h : whileRunning s k = .next t) :
    s.status = .running ∧ k s = .next t := by
  unfold whileRunning at h
  split at h
  · exact ⟨‹_›, h⟩
  · cases h

/-! ## The CPU cycle -/

theorem canFetch_iff (s : State) : canFetch s = true ↔ s.pc.toNat ≤ 0xFFE := by
  simp only [canFetch, decide_eq_true_eq]; omega

/-- The opcode that a CPU step fetches (20_memory.md R66). -/
theorem fetchWord_eq_ofNat (s : State) :
    fetchWord s = BitVec.ofNat 16 ((memByte s.mem s.pc.toNat).toNat * 256 + (memByte s.mem (s.pc.toNat + 1)).toNat) :=
  wordOfBytes_eq_ofNat _ _

theorem runWord_some {op : Word} {s : State} {i : Instr} (h : decode s.params.opset op = some i) :
    runWord op s = exec i s.advance := by
  simp [runWord, h]

theorem runWord_none {op : Word} {s : State} (h : decode s.params.opset op = none) :
    runWord op s = .next (unknownFault op s.advance) := by
  simp [runWord, h]

/-- In the execute stage the fetch address is the `PC` before the advance (30_encoding.md R95, R106). -/
@[simp] theorem State.fetchAddr_advance (s : State) : s.advance.fetchAddr = s.pc := by
  simp [State.fetchAddr]

theorem cpuStep_fetched {inp : CpuInput} {s : State} (h : s.pc.toNat ≤ 0xFFE) :
    cpuStep inp s = runWord (fetchWord s) (s.beginCpu inp) := by
  simp [cpuStep, (canFetch_iff s).2 h]

theorem cpuStep_past_end {inp : CpuInput} {s : State} (h : 0xFFE < s.pc.toNat) :
    cpuStep inp s = .next (fetchFault (s.beginCpu inp)) := by
  have : canFetch s = false := by rw [Bool.eq_false_iff, ne_eq, canFetch_iff]; omega
  simp [cpuStep, this]

/-- A CPU step that answers a next state has faulted at the fetch, has faulted on an unknown word, or has run an
instruction. -/
theorem cpuStep_cases {inp : CpuInput} {s t : State} (h : cpuStep inp s = .next t) :
    (0xFFE < s.pc.toNat ∧ t = fetchFault (s.beginCpu inp)) ∨
    (s.pc.toNat ≤ 0xFFE ∧ decode s.params.opset (fetchWord s) = none ∧
      t = unknownFault (fetchWord s) (s.beginCpu inp).advance) ∨
    (s.pc.toNat ≤ 0xFFE ∧ ∃ i, decode s.params.opset (fetchWord s) = some i ∧ exec i (s.beginCpu inp).advance = .next t) := by
  unfold cpuStep at h
  split at h
  · next hf =>
    rw [canFetch_iff] at hf
    cases hd : decode s.params.opset (fetchWord s) with
    | none => rw [runWord_none (by simpa using hd)] at h; cases h; exact .inr (.inl ⟨hf, rfl, rfl⟩)
    | some i => rw [runWord_some (by simpa using hd)] at h; exact .inr (.inr ⟨hf, i, rfl, h⟩)
  · next hf =>
    rw [canFetch_iff] at hf
    cases h; exact .inl ⟨by omega, rfl⟩

/-- A step that answers a next state is one of these. -/
theorem step_cases {s t : State} (h : step s = .next t) :
    (s.status = .running ∧ ∃ inp, nextEvent s = .cpu inp ∧ cpuStep inp (dropEvent s) = .next t) ∨
    (s.status = .running ∧ nextEvent s = .dtTick ∧ t = delayTick (dropEvent s)) ∨
    (s.status = .running ∧ nextEvent s = .stTick ∧ t = soundTick (dropEvent s)) ∨
    (∃ addr bytes, nextEvent s = .hostLoad addr bytes ∧ s.loadOpen = true ∧
      ((memWrite s.mem addr bytes = none ∧ t = { dropEvent s with out := .loadRejected addr bytes.length }) ∨
       ∃ m, memWrite s.mem addr bytes = some m ∧ t = { dropEvent s with mem := m, out := .loaded })) ∨
    (nextEvent s = .hostReset ∧ t = (dropEvent s).resetBlock) ∨
    (s.status = .running ∧ nextEvent s = .hostStop ∧ t = { dropEvent s with out := .stopped }) := by
  unfold step runEvent at h
  split at h
  · next inp he =>
    obtain ⟨hs, hc⟩ := whileRunning_next h
    exact .inl ⟨by simpa using hs, inp, he, hc⟩
  · next he =>
    obtain ⟨hs, hc⟩ := whileRunning_next h
    cases hc; exact .inr (.inl ⟨by simpa using hs, he, rfl⟩)
  · next he =>
    obtain ⟨hs, hc⟩ := whileRunning_next h
    cases hc; exact .inr (.inr (.inl ⟨by simpa using hs, he, rfl⟩))
  · next addr bytes he =>
    refine .inr (.inr (.inr (.inl ⟨addr, bytes, he, ?_⟩)))
    unfold hostLoadStep at h
    split at h
    · next hl =>
      refine ⟨by simpa using hl, ?_⟩
      split at h
      · next hm => cases h; exact .inl ⟨by simpa using hm, rfl⟩
      · next m hm => cases h; exact .inr ⟨m, by simpa using hm, rfl⟩
    · cases h
  · next he => cases h; exact .inr (.inr (.inr (.inr (.inl ⟨he, rfl⟩))))
  · next he =>
    obtain ⟨hs, hc⟩ := whileRunning_next h
    cases hc; exact .inr (.inr (.inr (.inr (.inr ⟨by simpa using hs, he, rfl⟩))))

/-! ## The instructions that check something -/

theorem execCall_cases (nnn : Addr) (s : State) :
    (s.sp = s.params.stackDepth ∧
      execCall nnn s = .next (raiseIn (.call nnn) .stackOverflow (.stackPointer s.sp) s)) ∨
    (s.sp ≠ s.params.stackDepth ∧ execCall nnn s = .next ((s.push s.pc).setPc (nnn.setWidth 16))) := by
  unfold execCall; split
  · exact .inl ⟨‹_›, rfl⟩
  · exact .inr ⟨‹_›, rfl⟩

theorem execRet_cases (s : State) :
    (s.sp = 0 ∧ execRet s = .next (raiseIn .ret .stackUnderflow (.stackPointer s.sp) s)) ∨
    (s.sp ≠ 0 ∧ execRet s = .next (s.pop.setPc (stackEntry s.stack (s.sp - 1)))) := by
  unfold execRet; split
  · exact .inl ⟨‹_›, rfl⟩
  · exact .inr ⟨‹_›, rfl⟩

@[simp] theorem decimalDigits_length (b : Byte) : (decimalDigits b).length = 3 := rfl

theorem execLdB_cases (x : Reg) (s : State) :
    (4096 < s.i.toNat + 3 ∧
      execLdB x s = .next (raiseIn (.ldB x) .outOfBounds (.access s.i.toNat 3) s)) ∨
    (s.i.toNat + 3 ≤ 4096 ∧
      execLdB x s = .next { s with mem := memPutRun s.mem s.i.toNat (decimalDigits (s.getV x)) }) := by
  unfold execLdB; split
  · next h => exact .inl ⟨memWrite_eq_none.1 h, rfl⟩
  · next m h => obtain ⟨h1, rfl⟩ := memWrite_eq_some.1 h
                exact .inr ⟨h1, rfl⟩

theorem execStoreRegs_cases (x : Reg) (s : State) :
    (4096 < s.i.toNat + (x.toNat + 1) ∧
      execStoreRegs x s = .next (raiseIn (.storeRegs x) .outOfBounds (.access s.i.toNat (x.toNat + 1)) s)) ∨
    (s.i.toNat + (x.toNat + 1) ≤ 4096 ∧
      execStoreRegs x s = .next (State.advanceI { s with mem := memPutRun s.mem s.i.toNat (s.regsUpTo x) } x)) := by
  unfold execStoreRegs; split
  · next h => exact .inl ⟨by simpa [dataAddr, State.regsUpTo_length] using memWrite_eq_none.1 h, rfl⟩
  · next m h => obtain ⟨h1, rfl⟩ := memWrite_eq_some.1 h
                exact .inr ⟨by simpa [dataAddr, State.regsUpTo_length] using h1, rfl⟩

theorem execLoadRegs_cases (x : Reg) (s : State) :
    (4096 < s.i.toNat + (x.toNat + 1) ∧
      execLoadRegs x s = .next (raiseIn (.loadRegs x) .outOfBounds (.access s.i.toNat (x.toNat + 1)) s)) ∨
    (s.i.toNat + (x.toNat + 1) ≤ 4096 ∧
      execLoadRegs x s = .next (State.advanceI { s with
        v := regsPutRun s.v 0 ((List.range (x.toNat + 1)).map fun k => memByte s.mem (s.i.toNat + k)) } x)) := by
  unfold execLoadRegs; split
  · next h => exact .inl ⟨memRead_eq_none.1 h, rfl⟩
  · next m h => obtain ⟨h1, rfl⟩ := memRead_eq_some.1 h
                exact .inr ⟨h1, rfl⟩

/-- The sprite rows that Dxyn reads (44_display.md R263). -/
def spriteRows (s : State) (n : Nibble) : List Byte := (List.range n.toNat).map fun k => memByte s.mem (s.i.toNat + k)

@[simp] theorem spriteRows_length (s : State) (n : Nibble) : (spriteRows s n).length = n.toNat := by simp [spriteRows]

theorem execDrw_cases (x y : Reg) (n : Nibble) (s : State) :
    (4096 < s.i.toNat + n.toNat ∧
      execDrw x y n s = .next (raiseIn (.drw x y n) .outOfBounds (.access s.i.toNat n.toNat) s)) ∨
    (s.i.toNat + n.toNat ≤ 4096 ∧ execDrw x y n s = .next (State.setV
      { s with disp := (drawSprite s.disp (spriteRows s n) (s.getV x).toNat (s.getV y).toNat).1 } vf
      (flagByte (drawSprite s.disp (spriteRows s n) (s.getV x).toNat (s.getV y).toNat).2))) := by
  unfold execDrw; split
  · next h => exact .inl ⟨memRead_eq_none.1 h, rfl⟩
  · next m h => obtain ⟨h1, rfl⟩ := memRead_eq_some.1 h
                exact .inr ⟨h1, rfl⟩

/-- The hits of a whole sprite are the spec's (44_display.md R261). -/
theorem spriteHitsFrom_zero (rows : List Byte) (ox oy : Nat) (y : Fin 32) (x : Fin 64) :
    spriteHitsFrom ox oy rows 0 y x ↔ spriteHits rows ox oy y x := by
  constructor
  · rintro ⟨k, hk, ht, c, hc, hb, he⟩
    refine ⟨k, c, hk, ?_, ?_, ?_, ?_⟩
    · simp only [List.mem_cons, List.not_mem_nil, or_false] at hc; omega
    · simpa [spriteBit, BitVec.getLsbD, Nat.testBit_eq_decide_div_mod_eq] using hb
    · rw [← he]; simp [targetX]
    · rw [← ht]; simp [targetY]
  · rintro ⟨k, c, hk, hc, hb, he, ht⟩
    refine ⟨k, hk, ?_, c, ?_, ?_, ?_⟩
    · apply Fin.ext; rw [ht]; simp [targetY]
    · simp only [List.mem_cons, List.not_mem_nil, or_false]; omega
    · simpa [spriteBit, BitVec.getLsbD, Nat.testBit_eq_decide_div_mod_eq] using hb
    · apply Fin.ext; rw [he]; simp [targetX]

/-- Which instructions fault, when, and with what record; nothing else is written (60_exceptions.md R320, R326). -/
theorem exec_faulted {i : Instr} {s t : State} {r : FaultRecord} (h : exec i s = .next t) (hs : s.status = .running)
    (hf : t.status = .faulted r) : ∃ k d, t = raiseIn i k d s ∧
      r = { kind := k, pc := s.pc - 2#16, opcode := some (encode i), detail := d } ∧
      ((∃ nnn, i = .sys nnn ∧ k = .unknownOpcode ∧ d = .none) ∨
       (∃ nnn, i = .call nnn ∧ s.sp = s.params.stackDepth ∧ k = .stackOverflow ∧ d = .stackPointer s.sp) ∨
       (i = .ret ∧ s.sp = 0 ∧ k = .stackUnderflow ∧ d = .stackPointer 0) ∨
       (∃ x y n, i = .drw x y n ∧ 4096 < s.i.toNat + n.toNat ∧ k = .outOfBounds ∧ d = .access s.i.toNat n.toNat) ∨
       (∃ x, i = .ldB x ∧ 4096 < s.i.toNat + 3 ∧ k = .outOfBounds ∧ d = .access s.i.toNat 3) ∨
       (∃ x, (i = .storeRegs x ∨ i = .loadRegs x) ∧ 4096 < s.i.toNat + (x.toNat + 1) ∧ k = .outOfBounds ∧
          d = .access s.i.toNat (x.toNat + 1))) := by
  cases i
  case sys nnn => cases h; cases hf; exact ⟨_, _, rfl, rfl, .inl ⟨_, rfl, rfl, rfl⟩⟩
  case call nnn =>
    rcases execCall_cases nnn s with ⟨h1, h2⟩ | ⟨h1, h2⟩ <;> rw [exec, h2] at h <;> cases h
    · cases hf; exact ⟨_, _, rfl, rfl, .inr (.inl ⟨_, rfl, h1, rfl, rfl⟩)⟩
    · simp [hs] at hf
  case ret =>
    rcases execRet_cases s with ⟨h1, h2⟩ | ⟨h1, h2⟩ <;> rw [exec, h2] at h <;> cases h
    · cases hf; exact ⟨_, _, rfl, rfl, .inr (.inr (.inl ⟨rfl, h1, rfl, by rw [h1]⟩))⟩
    · simp [hs] at hf
  case drw x y n =>
    rcases execDrw_cases x y n s with ⟨h1, h2⟩ | ⟨h1, h2⟩ <;> rw [exec, h2] at h <;> cases h
    · cases hf; exact ⟨_, _, rfl, rfl, .inr (.inr (.inr (.inl ⟨_, _, _, rfl, h1, rfl, rfl⟩)))⟩
    · simp [hs] at hf
  case ldB x =>
    rcases execLdB_cases x s with ⟨h1, h2⟩ | ⟨h1, h2⟩ <;> rw [exec, h2] at h <;> cases h
    · cases hf; exact ⟨_, _, rfl, rfl, .inr (.inr (.inr (.inr (.inl ⟨_, rfl, h1, rfl, rfl⟩))))⟩
    · simp [hs] at hf
  case storeRegs x =>
    rcases execStoreRegs_cases x s with ⟨h1, h2⟩ | ⟨h1, h2⟩ <;> rw [exec, h2] at h <;> cases h
    · cases hf; exact ⟨_, _, rfl, rfl, .inr (.inr (.inr (.inr (.inr ⟨_, .inl rfl, h1, rfl, rfl⟩))))⟩
    · simp [hs] at hf
  case loadRegs x =>
    rcases execLoadRegs_cases x s with ⟨h1, h2⟩ | ⟨h1, h2⟩ <;> rw [exec, h2] at h <;> cases h
    · cases hf; exact ⟨_, _, rfl, rfl, .inr (.inr (.inr (.inr (.inr ⟨_, .inr rfl, h1, rfl, rfl⟩))))⟩
    · simp [hs] at hf
  case ldVxK x => cases h; revert hf; cases s.input.keyEvent <;> simp [captureKey, hs]
  all_goals cases h; simp [hs] at hf

end Sys2Proof.Machine
end

