-- ==== Sys2Proof/Tests/Slice0.lean ====
section
/-! SUPPORT. Tests from the spec's own words and vectors (95_test_vectors.md), and a witness for the hypotheses of every
obligation that has any. -/

namespace Sys2Proof.Tests

open Sys2Proof.Machine

/-! ## WellFormed refuses -/

/-- 0x00E0 and 0x00EE are the words of CLS and RET, not of SYS (30_encoding.md R96). -/
theorem test_wellFormed_shadowed :
    (Instr.sys 0x0E0#12).wellFormed .full = false ∧ (Instr.sys 0x0EE#12).wellFormed .full = false ∧
    (Instr.sys 0x0E1#12).wellFormed .full = true := by decide

/-- A FULL-only instruction has no word under BASELINE (30_encoding.md R98). -/
theorem test_wellFormed_inactive :
    Instr.ret.wellFormed .baseline = false ∧ (Instr.call 0x300#12).wellFormed .baseline = false ∧
    (Instr.subReg 0x1#4 0x2#4).wellFormed .baseline = false ∧ (Instr.addReg 0x1#4 0x2#4).wellFormed .baseline = true := by
  decide

/-! ## Decoding: words written out from the masks and matches of 30_encoding.md R97 -/

theorem test_decode_control :
    decode .full 0b0000000011101110#16 = some .ret ∧
    decode .full 0b0000000100100011#16 = some (.sys 0x123#12) ∧
    decode .full 0b0001001000110100#16 = some (.jp 0x234#12) ∧
    decode .full 0b0010001100000000#16 = some (.call 0x300#12) ∧
    decode .full 0b1011001100000000#16 = some (.jpV0 0x300#12) := by decide

theorem test_decode_skips :
    decode .full 0b0011001100000101#16 = some (.seImm 0x3#4 0x05#8) ∧
    decode .full 0b0100000000000001#16 = some (.sneImm 0x0#4 0x01#8) ∧
    decode .full 0b0101000100100000#16 = some (.seReg 0x1#4 0x2#4) ∧
    decode .full 0b1001000100100000#16 = some (.sneReg 0x1#4 0x2#4) ∧
    decode .full 0b1110010110011110#16 = some (.skp 0x5#4) ∧
    decode .full 0b1110010110100001#16 = some (.sknp 0x5#4) := by decide

theorem test_decode_loads :
    decode .full 0b0110101000101111#16 = some (.ldImm 0xA#4 0x2F#8) ∧
    decode .full 0b0111000111111111#16 = some (.addImm 0x1#4 0xFF#8) ∧
    decode .full 0b1100001100001111#16 = some (.rnd 0x3#4 0x0F#8) ∧
    decode .full 0b1010001011110000#16 = some (.ldI 0x2F0#12) := by decide

theorem test_decode_alu :
    decode .full 0b1000000100100000#16 = some (.ldReg 0x1#4 0x2#4) ∧
    decode .full 0b1000000100100001#16 = some (.orReg 0x1#4 0x2#4) ∧
    decode .full 0b1000000100100010#16 = some (.andReg 0x1#4 0x2#4) ∧
    decode .full 0b1000000100100011#16 = some (.xorReg 0x1#4 0x2#4) ∧
    decode .full 0b1000000100100100#16 = some (.addReg 0x1#4 0x2#4) ∧
    decode .full 0b1000000100100101#16 = some (.subReg 0x1#4 0x2#4) ∧
    decode .full 0b1000000100100110#16 = some (.shr 0x1#4 0x2#4) ∧
    decode .full 0b1000000100100111#16 = some (.subn 0x1#4 0x2#4) ∧
    decode .full 0b1000000100101110#16 = some (.shl 0x1#4 0x2#4) := by decide

theorem test_decode_display :
    decode .full 0b0000000011100000#16 = some .cls ∧
    decode .full 0b1101000011110101#16 = some (.drw 0x0#4 0xF#4 0x5#4) := by decide

theorem test_decode_index_memory :
    decode .full 0b1111010000011110#16 = some (.addI 0x4#4) ∧
    decode .full 0b1111011100101001#16 = some (.ldF 0x7#4) ∧
    decode .full 0b1111001000110011#16 = some (.ldB 0x2#4) ∧
    decode .full 0b1111000101010101#16 = some (.storeRegs 0x1#4) ∧
    decode .full 0b1111000101100101#16 = some (.loadRegs 0x1#4) := by decide

theorem test_decode_timers_keys :
    decode .full 0b1111001100000111#16 = some (.ldVxDt 0x3#4) ∧
    decode .full 0b1111001000001010#16 = some (.ldVxK 0x2#4) ∧
    decode .full 0b1111000000010101#16 = some (.ldDtVx 0x0#4) ∧
    decode .full 0b1111000000011000#16 = some (.ldStVx 0x0#4) := by decide

/-- E10, E11, E13, E14, E15. -/
theorem test_decode_refuses :
    decode .full 0x5121#16 = none ∧ decode .full 0x8008#16 = none ∧ decode .full 0x800F#16 = none ∧
    decode .full 0xE1A0#16 = none ∧ decode .full 0xF166#16 = none ∧ decode .full 0xFFFF#16 = none := by decide

/-- E7, E8, E12, E15, E17 under BASELINE. -/
theorem test_decode_baseline :
    decode .baseline 0x00EE#16 = none ∧ decode .baseline 0x0123#16 = none ∧ decode .baseline 0x812E#16 = none ∧
    decode .baseline 0xFFFF#16 = none ∧ decode .baseline 0x8014#16 = some (.addReg 0x0#4 0x1#4) := by decide

/-- The table's numbering, and bytes too few for an opcode (30_encoding.md R90). -/
theorem test_decode_bytes :
    decodeTableWord 16 0xA2F0 = some (.ldI 0x2F0#12) ∧ decodeTableWord 16 0xFFFF = none ∧
    decodeBytes .full [0x12#8, 0x34#8, 0x56#8] = .ok (.jp 0x234#12, [0x56#8]) ∧
    decodeBytes .full [0x12#8] = .error .tooShort ∧
    decodeBytes .full [0xFF#8, 0xFF#8] = .error (.unknownOpcode 0xFFFF#16) := by
  refine ⟨by decide, by decide, rfl, rfl, rfl⟩

/-! ## One step on a small state -/

/-- The step that runs the opcode `op` at `PC`, from the reset state changed by `f`, answers a next state with `p`. -/
def runs (f : State → State) (op : Nat) (p : State → Bool) : Bool :=
  match step ((f State.reset).withFetchWord 16 op) with
  | .next t => p t
  | .fault _ => false
  | .refused _ => false

/-- A step without a placed opcode answers a next state with `p`. -/
def steps (s : State) (p : State → Bool) : Bool :=
  match step s with
  | .next t => p t
  | .fault _ => false
  | .refused _ => false

/-- The inputs of the next CPU step. -/
def given (inp : CpuInput) (s : State) : State := { s with schedule := [.cpu inp] }

/-- Two registers and VF. -/
def regs (v1 v2 f : Byte) (s : State) : State := ((s.setV 0x1#4 v1).setV 0x2#4 v2).setV 0xF#4 f

/-- Bytes stored from an address on. -/
def stored (a : Nat) (bs : List Byte) (s : State) : State := { s with mem := memPutRun s.mem a bs }

/-- A display with one row that is not clear. -/
def oneRow (y : Fin 32) (w : BitVec 64) : Display := displayClear.set y.val w

/-- The record of a fault, if the state is faulted. -/
def record (s : State) : Option FaultRecord :=
  match s.status with
  | .running => none
  | .faulted r => some r

/-! ### Fetch and faults (E2, E3, E5, E16, S10) -/

theorem test_fetch_odd : runs (·.setPc 0x201#16) 0x6005 (fun t => t.getV 0x0#4 == 0x05#8 && t.pc == 0x203#16) = true := by
  decide

theorem test_fetch_last : runs (·.setPc 0xFFE#16) 0x6001 (fun t => t.getV 0x0#4 == 0x01#8 && t.pc == 0x1000#16) = true := by
  decide

theorem test_fetch_past_end : steps (State.reset.setPc 0xFFF#16) (fun t =>
    record t == some ⟨.outOfBounds, 0xFFF#16, none, .access 0xFFF 2⟩ && t.pc == 0xFFF#16) = true := by decide

theorem test_unknown : runs id 0xFFFF (fun t =>
    record t == some ⟨.unknownOpcode, 0x200#16, some 0xFFFF#16, .none⟩ && t.pc == 0x202#16) = true := by decide

theorem test_unknown_baseline : runs (fun s => { s with params := { s.params with opset := .baseline } }) 0x2345 (fun t =>
    record t == some ⟨.unknownOpcode, 0x200#16, some 0x2345#16, .none⟩ && t.pc == 0x202#16 && t.sp == 0) = true := by
  decide

theorem test_sys : runs id 0x0123 (fun t =>
    record t == some ⟨.unknownOpcode, 0x200#16, some 0x0123#16, .none⟩ && t.pc == 0x202#16) = true := by decide

/-! ### Control flow (C1 to C19) -/

theorem test_jp : runs id 0x1234 (fun t => t.pc == 0x234#16) = true := by decide

theorem test_call : runs id 0x2300 (fun t => stackEntry t.stack 0 == 0x202#16 && t.sp == 1 && t.pc == 0x300#16) = true := by
  decide

theorem test_call_overflow : runs (fun s => { s with sp := 16 }) 0x2300 (fun t =>
    record t == some ⟨.stackOverflow, 0x200#16, some 0x2300#16, .stackPointer 16⟩ && t.pc == 0x202#16 && t.sp == 16) = true := by
  decide

theorem test_ret : runs (fun s => { s with pc := 0x300#16, sp := 1, stack := s.stack.set 0 0x202#16 }) 0x00EE
    (fun t => t.sp == 0 && t.pc == 0x202#16) = true := by decide

theorem test_ret_underflow : runs (·.setPc 0x300#16) 0x00EE (fun t =>
    record t == some ⟨.stackUnderflow, 0x300#16, some 0x00EE#16, .stackPointer 0⟩ && t.pc == 0x302#16) = true := by decide

theorem test_jpV0 : runs (·.setV 0x0#4 0xFF#8) 0xBFFF (fun t => t.pc == 0x10FE#16) = true := by decide

theorem test_jpV0_vx : runs (fun s => { s.setV 0x3#4 0x10#8 with params := { s.params with qJumpVx := true } }) 0xB300
    (fun t => t.pc == 0x310#16) = true := by decide

theorem test_seImm : runs (fun s => (s.setV 0x3#4 0x05#8).setPc 0x208#16) 0x3305 (fun t => t.pc == 0x20C#16) = true := by
  decide

theorem test_seImm_not : runs (fun s => (s.setV 0x3#4 0x04#8).setPc 0x208#16) 0x3305 (fun t => t.pc == 0x20A#16) = true := by
  decide

theorem test_sneImm : runs id 0x4001 (fun t => t.pc == 0x204#16) = true := by decide

theorem test_sneImm_not : runs (·.setV 0x0#4 0x01#8) 0x4001 (fun t => t.pc == 0x202#16) = true := by decide

theorem test_seReg : runs (regs 0x10#8 0x10#8 0x00#8) 0x5120 (fun t => t.pc == 0x204#16) = true := by decide

theorem test_sneReg : runs (regs 0x10#8 0x11#8 0x00#8) 0x9120 (fun t => t.pc == 0x204#16) = true := by decide

theorem test_sneReg_same : runs (regs 0x10#8 0x11#8 0x00#8) 0x9110 (fun t => t.pc == 0x202#16) = true := by decide

theorem test_skp : runs (fun s => given ⟨none, 0x0400#16, 0x00#8⟩ (s.setV 0x5#4 0x1A#8)) 0xE59E
    (fun t => t.pc == 0x204#16) = true := by decide

theorem test_skp_not : runs (fun s => given ⟨none, 0x0000#16, 0x00#8⟩ (s.setV 0x5#4 0x0A#8)) 0xE59E
    (fun t => t.pc == 0x202#16) = true := by decide

theorem test_sknp : runs (fun s => given ⟨none, 0x0000#16, 0x00#8⟩ (s.setV 0x5#4 0x0A#8)) 0xE5A1
    (fun t => t.pc == 0x204#16) = true := by decide

/-! ### Registers and arithmetic (A1 to A35) -/

theorem test_addReg : runs (regs 0xFF#8 0xFF#8 0x00#8) 0x8124
    (fun t => t.getV 0x1#4 == 0xFE#8 && t.getV 0xF#4 == 0x01#8) = true := by decide

theorem test_addReg_vf : runs (regs 0x00#8 0x02#8 0xFF#8) 0x8F24 (fun t => t.getV 0xF#4 == 0x01#8) = true := by decide

theorem test_subReg : runs (regs 0x05#8 0x07#8 0x01#8) 0x8125
    (fun t => t.getV 0x1#4 == 0xFE#8 && t.getV 0xF#4 == 0x00#8) = true := by decide

theorem test_subReg_equal : runs (regs 0x05#8 0x05#8 0x00#8) 0x8125
    (fun t => t.getV 0x1#4 == 0x00#8 && t.getV 0xF#4 == 0x01#8) = true := by decide

theorem test_subn : runs (regs 0x05#8 0x07#8 0x00#8) 0x8127
    (fun t => t.getV 0x1#4 == 0x02#8 && t.getV 0xF#4 == 0x01#8) = true := by decide

theorem test_subn_borrow : runs (regs 0x07#8 0x05#8 0x01#8) 0x8127
    (fun t => t.getV 0x1#4 == 0xFE#8 && t.getV 0xF#4 == 0x00#8) = true := by decide

theorem test_shr : runs (regs 0x00#8 0xFF#8 0x00#8) 0x8126
    (fun t => t.getV 0x1#4 == 0x7F#8 && t.getV 0xF#4 == 0x01#8) = true := by decide

theorem test_shr_vf : runs (regs 0x00#8 0x05#8 0x00#8) 0x8F26 (fun t => t.getV 0xF#4 == 0x01#8) = true := by decide

theorem test_shl : runs (regs 0x00#8 0x81#8 0x00#8) 0x812E
    (fun t => t.getV 0x1#4 == 0x02#8 && t.getV 0xF#4 == 0x01#8) = true := by decide

theorem test_shl_in_place :
    runs (fun s => { regs 0x81#8 0x00#8 0x00#8 s with params := { s.params with qShiftFromVy := false } }) 0x812E
    (fun t => t.getV 0x1#4 == 0x02#8 && t.getV 0xF#4 == 0x01#8) = true := by decide

theorem test_orReg : runs (regs 0x0F#8 0xF0#8 0x01#8) 0x8121
    (fun t => t.getV 0x1#4 == 0xFF#8 && t.getV 0xF#4 == 0x00#8) = true := by decide

theorem test_orReg_keeps_vf :
    runs (fun s => { regs 0x0F#8 0xF0#8 0x01#8 s with params := { s.params with qLogicClearsVf := false } }) 0x8121
    (fun t => t.getV 0x1#4 == 0xFF#8 && t.getV 0xF#4 == 0x01#8) = true := by decide

theorem test_andReg : runs (regs 0x3C#8 0x0F#8 0x01#8) 0x8122
    (fun t => t.getV 0x1#4 == 0x0C#8 && t.getV 0xF#4 == 0x00#8) = true := by decide

theorem test_xorReg : runs (regs 0x3C#8 0x0F#8 0x01#8) 0x8123
    (fun t => t.getV 0x1#4 == 0x33#8 && t.getV 0xF#4 == 0x00#8) = true := by decide

theorem test_ldReg : runs (regs 0x00#8 0x7F#8 0x01#8) 0x8120
    (fun t => t.getV 0x1#4 == 0x7F#8 && t.getV 0xF#4 == 0x01#8) = true := by decide

theorem test_ldImm : runs id 0x6A2F (fun t => t.getV 0xA#4 == 0x2F#8) = true := by decide

theorem test_addImm : runs (regs 0xFF#8 0x00#8 0x5A#8) 0x71FF
    (fun t => t.getV 0x1#4 == 0xFE#8 && t.getV 0xF#4 == 0x5A#8) = true := by decide

theorem test_addImm_vf : runs (regs 0x00#8 0x00#8 0xFF#8) 0x7F01 (fun t => t.getV 0xF#4 == 0x00#8) = true := by decide

theorem test_rnd : runs (given ⟨none, 0#16, 0xA7#8⟩) 0xC30F (fun t => t.getV 0x3#4 == 0x07#8) = true := by decide

/-! ### Index register and memory (M1 to M17) -/

theorem test_ldI : runs id 0xA2F0 (fun t => t.i == 0x2F0#16) = true := by decide

theorem test_addI : runs (fun s => (s.setV 0x4#4 0x02#8).setI 0xFFF#16) 0xF41E
    (fun t => t.i == 0x001#16 && t.getV 0xF#4 == 0x00#8) = true := by decide

theorem test_ldF : runs (·.setV 0x7#4 0x1F#8) 0xF729 (fun t => t.i == 0x04B#16) = true := by decide

theorem test_ldB : runs (fun s => (s.setV 0x2#4 0xFF#8).setI 0xFFD#16) 0xF233
    (fun t => memByte t.mem 0xFFD == 0x02#8 && memByte t.mem 0xFFE == 0x05#8 && memByte t.mem 0xFFF == 0x05#8 &&
      t.i == 0xFFD#16) = true := by decide

theorem test_ldB_fault : runs (fun s => (s.setV 0x2#4 0xFF#8).setI 0xFFE#16) 0xF233
    (fun t => record t == some ⟨.outOfBounds, 0x200#16, some 0xF233#16, .access 0xFFE 3⟩ &&
      memByte t.mem 0xFFE == 0x00#8 && t.pc == 0x202#16) = true := by decide

theorem test_storeRegs : runs (fun s => ((s.setV 0x0#4 0x11#8).setV 0x1#4 0x22#8).setI 0x400#16) 0xF155
    (fun t => memByte t.mem 0x400 == 0x11#8 && memByte t.mem 0x401 == 0x22#8 && t.i == 0x402#16) = true := by decide

theorem test_storeRegs_last : runs (fun s => (s.setV 0x0#4 0x99#8).setI 0xFFF#16) 0xF055
    (fun t => memByte t.mem 0xFFF == 0x99#8 && t.i == 0x000#16) = true := by decide

theorem test_loadRegs : runs (fun s => (stored 0x300 [0x02#8, 0x05#8, 0x04#8] s).setI 0x300#16) 0xF265
    (fun t => t.getV 0x0#4 == 0x02#8 && t.getV 0x1#4 == 0x05#8 && t.getV 0x2#4 == 0x04#8 && t.i == 0x303#16) = true := by
  decide

theorem test_loadRegs_fault : runs (·.setI 0xFFE#16) 0xF265
    (fun t => record t == some ⟨.outOfBounds, 0x200#16, some 0xF265#16, .access 0xFFE 3⟩ && t.i == 0xFFE#16) = true := by
  decide

/-! ### Display (D3, D11, D12) -/

theorem test_drw_wrap : runs (fun s => ((stored 0x300 [0xFF#8] s).setV 0x0#4 60#8).setI 0x300#16) 0xD011
    (fun t => t.disp == oneRow 0 0xF00000000000000F#64 && t.getV 0xF#4 == 0x00#8) = true := by decide

theorem test_drw_origin_vf :
    runs (fun s => ((stored 0x300 [0x80#8] s).setV 0xF#4 0x05#8).setI 0x300#16) 0xD0F1
    (fun t => t.disp == oneRow 5 0x0000000000000001#64 && t.getV 0xF#4 == 0x00#8) = true := by decide

theorem test_cls : runs (fun s => { s with disp := oneRow 3 0xFF#64 }) 0x00E0 (fun t => t.disp == displayClear) = true := by
  decide

/-! ### Timers, keys and the host (T1 to T11) -/

theorem test_ldVxDt : runs (fun s => { s with dt := 0x3C#8 }) 0xF307 (fun t => t.getV 0x3#4 == 0x3C#8) = true := by decide

theorem test_ldDtVx : runs (·.setV 0x0#4 0x05#8) 0xF015 (fun t => t.dt == 0x05#8) = true := by decide

theorem test_ldStVx : runs (fun s => { s with st := 0x05#8 }) 0xF018
    (fun t => t.st == 0x00#8 && t.out == .completed) = true := by decide

theorem test_ldVxK : runs (fun s => given ⟨some 0xB#4, 0#16, 0#8⟩ (s.setPc 0x210#16)) 0xF20A
    (fun t => t.getV 0x2#4 == 0x0B#8 && t.pc == 0x212#16) = true := by decide

theorem test_ldVxK_waits : runs (fun s => given ⟨none, 0#16, 0#8⟩ (s.setPc 0x210#16)) 0xF20A
    (fun t => t.getV 0x2#4 == 0x00#8 && t.pc == 0x210#16 && t.out == .waiting) = true := by decide

theorem test_dtTick : steps { State.reset with dt := 5#8, schedule := [.dtTick] }
    (fun t => t.dt == 4#8 && t.st == 0#8 && t.out == .ticked false) = true := by decide

theorem test_stTick : steps { State.reset with st := 1#8, schedule := [.stTick] }
    (fun t => t.st == 0#8 && t.out == .ticked true) = true := by decide

theorem test_hostLoad : steps { State.reset with schedule := [.hostLoad 0x200 [0x12#8, 0x34#8]] }
    (fun t => memByte t.mem 0x200 == 0x12#8 && memByte t.mem 0x201 == 0x34#8 && t.out == .loaded) = true := by decide

/-- The conventional glyph 0xF ends where the spec's table ends: 16 glyphs of 5 bytes (93_implementation_defined.md, part 3). -/
theorem test_font : Config.conventionalFont.length = 80 ∧ Config.conventionalFont.drop 75 = [0xF0#8, 0x80#8, 0xF0#8, 0x80#8, 0x80#8] := by
  decide

/-- The whole boot of 70_reset_and_hazards.md R373, then no step has run: the program is at 0x200. -/
theorem test_bootSchedule : bootSchedule Params.default [0x12#8, 0x00#8] [] =
    [.hostReset, .hostLoad 0x200 [0x12#8, 0x00#8]] := by decide

/-! ## Witnesses: for each obligation with hypotheses, a concrete case that meets them all, clause by clause -/

theorem witness_DecodeOfEncodeIsTheInstruction :
    (Instr.drw 0xF#4 0x0#4 0x5#4).wellFormed .full = true ∧ (Instr.sys 0x0ED#12).wellFormed .full = true ∧
    (Instr.ldVxK 0xF#4).wellFormed .baseline = true := by decide

theorem witness_EncodeOfDecodeIsTheWord :
    decode .full 0x00E0#16 = some .cls ∧ decode .baseline 0x8FF4#16 = some (.addReg 0xF#4 0xF#4) := by decide

/-- 0x00EE matches two rows; 0xFFFF matches none. -/
theorem witness_DecoderTakesTheMostSpecificActiveRow :
    decode .full 0x00EE#16 = some .ret ∧ decode .full 0xFFFF#16 = none ∧
    0x00EE#16 &&& 0xF000#16 = 0x0000#16 ∧ maskBits 0xF0FF#16 = 12 ∧ maskBits 0xF00F#16 = 8 := by decide

/-- The edges of the ranges of 30_encoding.md R101. -/
theorem witness_UnknownOpcodesOfTheFullSet :
    (unknownInFull 0x00DF#16 ∧ unknownInFull 0x5FF1#16 ∧ unknownInFull 0x800F#16 ∧ unknownInFull 0xFF66#16) ∧
    (¬ unknownInFull 0x00E0#16 ∧ ¬ unknownInFull 0x800E#16 ∧ ¬ unknownInFull 0xE0A1#16 ∧ ¬ unknownInFull 0xFF65#16) := by
  refine ⟨⟨?_, ?_, ?_, ?_⟩, ?_, ?_, ?_, ?_⟩ <;> simp [unknownInFull]

/-- A running state whose next step is a CPU step without inputs, with the opcode `op` at `PC`. -/
def ready (f : State → State) (op : Nat) : State := (given ⟨none, 0#16, 0#8⟩ (f State.reset)).withFetchWord 16 op

/-- The last address that can be fetched from. -/
theorem witness_StepRunsTheDecodedInstruction :
    (ready (·.setPc 0xFFE#16) 0x6001).status = .running ∧
    (ready (·.setPc 0xFFE#16) 0x6001).schedule = .cpu ⟨none, 0#16, 0#8⟩ :: [] ∧
    (ready (·.setPc 0xFFE#16) 0x6001).pc.toNat ≤ 0xFFE ∧
    decode .full (fetchWord (ready (·.setPc 0xFFE#16) 0x6001)) = some (.ldImm 0x0#4 0x01#8) := by decide

theorem witness_UnscheduledStepDrawsFreeInputs :
    (State.reset.withFetchWord 16 0x6001).status = .running ∧ (State.reset.withFetchWord 16 0x6001).schedule = [] ∧
    (State.reset.withFetchWord 16 0x6001).pc.toNat ≤ 0xFFE ∧
    decode .full (fetchWord (State.reset.withFetchWord 16 0x6001)) = some (.ldImm 0x0#4 0x01#8) := by decide

/-- A running state from which nothing can be fetched. -/
def pastEnd : State := given ⟨none, 0#16, 0#8⟩ (State.reset.setPc 0xFFF#16)

theorem witness_FetchIsBigEndianOrFaults :
    (ready (·.setPc 0xFFE#16) 0x6001).pc.toNat = 0xFFE ∧
    pastEnd.status = .running ∧ pastEnd.schedule = .cpu ⟨none, 0#16, 0#8⟩ :: [] ∧ pastEnd.pc.toNat > 0xFFE := by decide

theorem witness_UnmatchedWordFaultsOnTheAdvancedState :
    (ready id 0xFFFF).status = .running ∧ (ready id 0xFFFF).schedule = .cpu ⟨none, 0#16, 0#8⟩ :: [] ∧
    (ready id 0xFFFF).pc.toNat ≤ 0xFFE ∧ fetchWord (ready id 0xFFFF) = 0xFFFF#16 ∧
    decode (ready id 0xFFFF).params.opset 0xFFFF#16 = none := by decide

/-- The step answers a faulted state with this kind and detail, from a running state whose CPU is next. -/
def faultsWith (s : State) (k : FaultKind) (d : FaultDetail) : Bool :=
  s.status == .running && s.schedule == [.cpu ⟨none, 0#16, 0#8⟩] &&
    steps s fun t => (record t).any fun r => r.kind == k && r.detail == d

/-- A fault at the fetch and a fault in the execute stage. -/
theorem witness_FaultsArePrecise :
    faultsWith pastEnd .outOfBounds (.access 0xFFF 2) = true ∧
    faultsWith (ready (·.setI 0xFFE#16) 0xF233) .outOfBounds (.access 0xFFE 3) = true := by decide

/-- Every cause, each at the edge of its range. -/
theorem witness_EachFaultHasItsCause :
    (faultsWith pastEnd .outOfBounds (.access 0xFFF 2) = true ∧
      faultsWith (ready id 0xFFFF) .unknownOpcode .none = true ∧ faultsWith (ready id 0x0123) .unknownOpcode .none = true ∧
      faultsWith (ready (fun s => { s with sp := 16 }) 0x2300) .stackOverflow (.stackPointer 16) = true ∧
      faultsWith (ready id 0x00EE) .stackUnderflow (.stackPointer 0) = true) ∧
    (faultsWith (ready (·.setI 0xFFE#16) 0xD013) .outOfBounds (.access 0xFFE 3) = true ∧
      faultsWith (ready (·.setI 0xFFE#16) 0xF233) .outOfBounds (.access 0xFFE 3) = true ∧
      faultsWith (ready (·.setI 0xFF1#16) 0xFF55) .outOfBounds (.access 0xFF1 16) = true ∧
      faultsWith (ready (·.setI 0xFFF#16) 0xF165) .outOfBounds (.access 0xFFF 2) = true) := by decide

/-- A faulted state, as P7 of 95_test_vectors.md leaves it, with a schedule. -/
def stopped (es : List Event) : State :=
  { State.reset with
    pc := 0xFFF#16, loadOpen := false, schedule := es, dt := 5#8,
    status := .faulted ⟨.outOfBounds, 0xFFF#16, none, .access 0xFFF 2⟩ }

/-- No step of the CPU or a timer is enabled, and the reset is (T11). -/
theorem witness_OnlyResetLeavesAFault :
    step (stopped [.cpu ⟨none, 0#16, 0#8⟩]) = .fault (.halted ⟨.outOfBounds, 0xFFF#16, none, .access 0xFFF 2⟩) ∧
    step (stopped [.dtTick]) = .fault (.halted ⟨.outOfBounds, 0xFFF#16, none, .access 0xFFF 2⟩) ∧
    step (stopped []) = .fault (.halted ⟨.outOfBounds, 0xFFF#16, none, .access 0xFFF 2⟩) ∧
    ∃ t, step (stopped [.hostReset]) = .next t ∧ t.status = .running := ⟨rfl, rfl, rfl, _, rfl, rfl⟩

theorem witness_WaitingStepChangesNothing :
    (ready id 0xF20A).status = .running ∧ (ready id 0xF20A).schedule = .cpu ⟨none, 0#16, 0#8⟩ :: [] ∧
    ∃ t, step (ready id 0xF20A) = .next t ∧ t.out = .waiting := ⟨rfl, rfl, _, rfl, rfl⟩

/-- Both timers, at the values where a tick behaves differently: 0, 1 and 255. -/
theorem witness_TimerTicksCountDownToZero :
    (steps { State.reset with schedule := [.dtTick] } fun t => t.dt == 0#8) = true ∧
    (steps { State.reset with schedule := [.dtTick], dt := 255#8 } fun t => t.dt == 254#8) = true ∧
    (steps { State.reset with schedule := [.stTick], st := 1#8 } fun t => t.st == 0#8) = true := by decide

theorem witness_BeepIsExactlyTheSoundTickFromOne :
    (∃ t, step { State.reset with schedule := [.stTick], st := 1#8 } = .next t ∧ t.out = .ticked true) ∧
    (∃ t, step { State.reset with schedule := [.stTick], st := 2#8 } = .next t ∧ t.out = .ticked false) ∧
    ∃ t, step { State.reset with schedule := [.dtTick], dt := 1#8 } = .next t ∧ t.out = .ticked false :=
  ⟨⟨_, rfl, rfl⟩, ⟨_, rfl, rfl⟩, _, rfl, rfl⟩

/-- A load that just fits, one that does not, and one outside the window. -/
theorem witness_HostLoadIsAllOrNothingInItsWindow :
    Memory.wf State.reset.mem = true ∧ State.reset.loadOpen = true ∧
    (steps { State.reset with schedule := [.hostLoad 0xFFF [0x12#8]] } fun t => t.out == .loaded) = true ∧
    (steps { State.reset with schedule := [.hostLoad 0xFFF [0x12#8, 0x34#8]] } fun t => t.out == .loadRejected 0xFFF 2) = true ∧
    step { State.reset with schedule := [.hostLoad 0x200 []], loadOpen := false } = .refused (.hostLoadDuringRun 0x200 0) :=
  ⟨rfl, rfl, by decide, by decide, rfl⟩

theorem witness_HostResetRestoresTheResetState :
    (stopped [.hostReset]).schedule = .hostReset :: [] ∧ (stopped [.hostReset]).status ≠ .running := by decide

theorem witness_HostStopChangesNoState :
    ({ State.reset with schedule := [.hostStop] } : State).status = .running ∧
    ({ State.reset with schedule := [.hostStop] } : State).schedule = .hostStop :: [] := by decide

/-- The first and the last address, the first address outside, and a write of the value an unlisted address reads as. -/
theorem witness_ByteWriteThenReadRoundTrips :
    Memory.wf [(0, 0x12#8), (4095, 0x34#8)] = true ∧ writeByte [(4095, 0x34#8)] 0 0x12#8 = some [(0, 0x12#8), (4095, 0x34#8)] ∧
    writeByte [(0, 0x12#8), (4095, 0x34#8)] 4095 0x00#8 = some [(0, 0x12#8)] ∧ writeByte [] 4096 0x12#8 = none := by decide

/-- A run that ends with the last byte, the empty run at the end, and a run one byte too long. -/
theorem witness_RunWriteIsAllOrNothing :
    Memory.wf [(4094, 0x01#8)] = true ∧ memWrite [(4094, 0x01#8)] 4094 [0x02#8, 0x03#8] = some [(4094, 0x02#8), (4095, 0x03#8)] ∧
    memWrite [] 4096 [] = some [] ∧ memWrite [] 4095 [0x02#8, 0x03#8] = none := by decide

/-- Program P6 of 95_test_vectors.md stores over its own next instruction. -/
def overNext : State := { (State.reset.setV 0x0#4 0x12#8).setV 0x1#4 0x0A#8 with i := 0x20A#16, pc := 0x20A#16 }

theorem witness_FetchSeesTheStoredBytes :
    Memory.wf overNext.mem = true ∧ overNext.i.toNat + (0x1#4).toNat + 1 ≤ 4096 ∧ 1 ≤ (0x1#4).toNat ∧ overNext.pc = overNext.i ∧
    ∃ t, exec (.storeRegs 0x1#4) overNext = .next t ∧ fetchWord t = 0x120A#16 :=
  ⟨rfl, by decide, by decide, rfl, _, rfl, by decide⟩

/-- The last free entry and the full stack. -/
theorem witness_CallPushesTheReturnAddressOrOverflows :
    State.reset.stack.length = State.reset.params.stackDepth ∧
    ({ State.reset with sp := 15 } : State).sp < State.reset.params.stackDepth ∧
    ({ State.reset with sp := 16 } : State).sp = State.reset.params.stackDepth := by decide

/-- One entry in use, the last one, and none. -/
theorem witness_ReturnPopsOrUnderflows :
    0 < ({ State.reset with sp := 1 } : State).sp ∧ 0 < ({ State.reset with sp := 16 } : State).sp ∧ State.reset.sp = 0 := by decide

theorem witness_ReturnUndoesCall :
    State.reset.stack.length = State.reset.params.stackDepth ∧ State.reset.sp < State.reset.params.stackDepth ∧
    ∃ t, exec (.call 0x300#12) State.reset = .next t := ⟨rfl, by decide, _, rfl⟩

/-- Both values of the parameter, and x = F. -/
theorem witness_LogicResultsAndTheClearedFlag :
    (runs (regs 0x00#8 0x01#8 0x10#8) 0x8F21 fun t => t.getV 0xF#4 == 0x00#8) = true ∧
    (runs (fun s => { regs 0x00#8 0x01#8 0x10#8 s with params := { s.params with qLogicClearsVf := false } }) 0x8F21
      fun t => t.getV 0xF#4 == 0x11#8) = true := by decide

/-- Both sources of the shift. -/
theorem witness_ShiftsSetTheShiftedOutBitLast :
    shiftSource 0x1#4 0x2#4 (regs 0x05#8 0xFE#8 0x00#8 State.reset) = 0xFE#8 ∧
    shiftSource 0x1#4 0x2#4 { regs 0x05#8 0xFE#8 0x00#8 State.reset with
      params := { Params.default with qShiftFromVy := false } } = 0x05#8 := by decide

/-- The last run that fits and the first that does not. -/
theorem witness_DecimalSplitStoresThreeDigitsOrFaults :
    Memory.wf State.reset.mem = true ∧ (State.reset.setI 0xFFD#16).i.toNat + 3 = 4096 ∧
    (State.reset.setI 0xFFE#16).i.toNat + 3 > 4096 := by decide

/-- The last run that fits and the first that does not, for all 16 registers and for one. -/
theorem witness_BlockStoreWritesTheRunOrFaults :
    Memory.wf State.reset.mem = true ∧ (State.reset.setI 0xFF0#16).i.toNat + (0xF#4).toNat + 1 = 4096 ∧
    (State.reset.setI 0xFF1#16).i.toNat + (0xF#4).toNat + 1 > 4096 ∧ (State.reset.setI 0xFFF#16).i.toNat + (0x0#4).toNat + 1 = 4096 := by
  decide

theorem witness_BlockLoadReadsTheRunOrFaults :
    (State.reset.setI 0xFF0#16).i.toNat + (0xF#4).toNat + 1 = 4096 ∧ (State.reset.setI 0xFF1#16).i.toNat + (0xF#4).toNat + 1 > 4096 := by
  decide

/-- A hit and a miss, with wraparound on both axes. -/
theorem witness_SpriteXorsItsBitsWithWraparound :
    [0x80#8, 0x01#8].length ≤ 32 ∧ spriteHits [0x80#8, 0x01#8] 60 31 0 3 ∧
    (drawSprite displayClear [0x80#8, 0x01#8] 60 31).1 = (oneRow 31 0x1000000000000000#64).set 0 0x0000000000000008#64 ∧
    (drawSprite (oneRow 31 0x1000000000000000#64) [0x80#8] 60 31).2 = true := by
  refine ⟨by decide, ⟨1, 7, by decide, by decide, by decide, by decide, by decide⟩, by decide, by decide⟩

/-- Rows in memory, a run that ends with memory, one that does not fit, and n = 0. -/
theorem witness_DrawReadsItsRowsAndSetsTheCollision :
    (State.reset.setI 0xFFD#16).i.toNat + (0x3#4).toNat = 4096 ∧ (State.reset.setI 0xFFE#16).i.toNat + (0x3#4).toNat > 4096 ∧
    (runs (fun s => { (stored 0x300 [0x40#8] s).setV 0x0#4 1#8 with i := 0x300#16, disp := oneRow 0 0x4#64 }) 0xD011
      fun t => t.disp == displayClear && t.getV 0xF#4 == 0x01#8) = true ∧
    (runs (fun s => s.setV 0xF#4 1#8) 0xD010 fun t => t.getV 0xF#4 == 0x00#8) = true := by decide

theorem witness_DrawingTwiceRestoresTheDisplay :
    [0xF0#8].length ≤ 32 ∧ (drawSprite (oneRow 0 0xF#64) [0xF0#8] 0 0).2 = true := by decide

theorem witness_KeyWaitCapturesOrWaits :
    (given ⟨none, 0#16, 0#8⟩ State.reset).input.keyEvent = none ∧
    ({ State.reset with input := ⟨some 0xF#4, 0#16, 0#8⟩ } : State).input.keyEvent = some 0xF#4 := by decide

/-- The invariant holds at reset, and a step leads on. -/
theorem witness_EveryStepKeepsTheInvariant :
    (State.reset.withFetchWord 16 0x2300).Inv ∧ ∃ t, step (ready id 0x2300) = .next t ∧ t.sp = 1 := by
  refine ⟨⟨by decide, by decide, by decide, by decide, by decide, ?_, by decide, ?_, by decide⟩, _, rfl, rfl⟩
  · intro a ha; rw [List.eq_of_mem_replicate ha]; decide
  · intro r h; cases h

/-- Each clause has an instruction that its hypotheses meet, and one that writes the part. -/
theorem witness_EachPartHasItsOnlyWriters :
    (∃ t, exec (.addReg 0x1#4 0x2#4) State.reset = .next t ∧ t.pc = State.reset.pc) ∧
    (∃ t, exec (.ldB 0x1#4) State.reset = .next t ∧ t.v = State.reset.v) ∧
    (∃ t, exec .ret State.reset = .next t ∧ t.status ≠ State.reset.status) ∧
    (∃ t, exec (.jp 0x234#12) State.reset = .next t ∧ t.pc = 0x234#16) ∧
    ¬ Instr.writesV Params.default 0x0#4 (.addReg 0x1#4 0x2#4) ∧ Instr.writesV Params.default 0xF#4 (.loadRegs 0xF#4) ∧
    ¬ Instr.writesV Params.default 0xF#4 (.loadRegs 0xE#4) ∧ Instr.writesV Params.default 0xF#4 (.orReg 0x1#4 0x2#4) ∧
    (Instr.addReg 0x1#4 0x2#4).writesPc = false ∧ (Instr.jp 0x234#12).mayFault = false :=
  ⟨⟨_, rfl, rfl⟩, ⟨_, rfl, rfl⟩, ⟨_, rfl, by decide⟩, ⟨_, rfl, rfl⟩, by simp [Instr.writesV], by simp [Instr.writesV],
    by simp [Instr.writesV], by simp [Instr.writesV, Params.default], rfl, rfl⟩

/-- A flag writer, a cleared flag and a write of VF by its number, each from a state where VF changes. -/
theorem witness_FlagRegisterHasItsOnlyWriters :
    (runs (regs 0xFF#8 0x01#8 0x00#8) 0x8124 fun t => t.getV 0xF#4 != 0x00#8) = true ∧
    (runs (regs 0xFF#8 0x01#8 0x01#8) 0x8121 fun t => t.getV 0xF#4 != 0x01#8) = true ∧
    (runs (regs 0xFF#8 0x01#8 0x01#8) 0x6F00 fun t => t.getV 0xF#4 != 0x01#8) = true := by decide

/-- Inputs that differ in what the instruction does not read. -/
theorem witness_InputsAreReadOnlyByTheirInstructions :
    (∃ t, exec (.rnd 0x1#4 0xFF#8) State.reset = .next t) ∧
    (⟨some 0x1#4, 0xFFFF#16, 0x00#8⟩ : CpuInput).rand = State.reset.input.rand ∧
    (⟨some 0x1#4, 0x0000#16, 0xFF#8⟩ : CpuInput).keysDown = State.reset.input.keysDown ∧
    (⟨none, 0xFFFF#16, 0xFF#8⟩ : CpuInput).keyEvent = State.reset.input.keyEvent := ⟨⟨_, rfl⟩, rfl, rfl, rfl⟩

theorem witness_ParametersStayAndBaselineLeavesTheStack :
    (ready (fun s => { s with params := { s.params with opset := .baseline } }) 0x2345).params.opset = .baseline ∧
    (ready (fun s => { s with params := { s.params with opset := .baseline } }) 0x2345).schedule.head? ≠ some .hostReset ∧
    ∃ t, step (ready (fun s => { s with params := { s.params with opset := .baseline } }) 0x2345) = .next t ∧ t.sp = 0 :=
  ⟨rfl, by decide, _, rfl, rfl⟩

/-- C1. -/
theorem witness_IdleStateStaysIdle :
    idle (ready id 0x1200) = true ∧ (ready id 0x1200).schedule = .cpu ⟨none, 0#16, 0#8⟩ :: [] := by decide

/-- From the last address that can be fetched from, and from a faulted state past it. -/
theorem witness_PlacedWordIsTheNextInstruction :
    Memory.wf State.reset.mem = true ∧ (State.reset.setPc 0xFFE#16).pc.toNat = 0xFFE ∧ (stopped [.dtTick]).pc.toNat > 0xFFE ∧
    decode State.reset.params.opset (BitVec.ofNat 16 0x6001) = some (.ldImm 0x0#4 0x01#8) ∧
    (steps ((State.reset.setPc 0xFFE#16).withFetchWord 16 0x6001) fun t =>
      t.getV 0x0#4 == 0x01#8 && t.pc == 0x1000#16 && memByte t.mem 0xFFE == 0x60#8 && memByte t.mem 0xFFF == 0x01#8) = true ∧
    (steps ((stopped [.dtTick]).withFetchWord 16 0x6001) fun t =>
      t.getV 0x0#4 == 0x01#8 && t.pc == 0x202#16 && memByte t.mem 0x200 == 0x60#8 && memByte t.mem 0x201 == 0x01#8) = true := by
  decide

end Sys2Proof.Tests
end

section
/-! The byte operations of memory, each said once (20_memory.md R61, R62), and the two statements about memory writes. -/

namespace Sys2Proof.Machine

/-- `read_byte` inside memory answers the byte at the address (R61). -/
theorem readByte_of_lt (m : Memory) {a : Nat} (ha : a < Config.memSize) : readByte m a = some (memByte m a) :=
  if_pos ha

/-- `read_byte` fails exactly outside memory (R61). -/
theorem readByte_eq_none {m : Memory} {a : Nat} : readByte m a = none ↔ Config.memSize ≤ a := by
  unfold readByte; split <;> simp_all

/-- `read_byte` depends on memory only through the byte at the address. -/
theorem readByte_congr {m m' : Memory} {a : Nat} (h : memByte m' a = memByte m a) : readByte m' a = readByte m a := by
  simp only [readByte, h]

/-- `write_byte` inside memory stores the one byte (R62). -/
theorem writeByte_of_lt (m : Memory) {a : Nat} (ha : a < Config.memSize) (b : Byte) :
    writeByte m a b = some (memPut m a b) :=
  if_pos ha

/-- `write_byte` fails exactly outside memory (R62). -/
theorem writeByte_eq_none {m : Memory} {a : Nat} {b : Byte} : writeByte m a b = none ↔ Config.memSize ≤ a := by
  unfold writeByte; split <;> simp_all

/-- `read_byte` at the address just stored gives the stored byte. -/
theorem readByte_memPut_self {m : Memory} (hm : Memory.wf m = true) {a : Nat} (ha : a < Config.memSize) (b : Byte) :
    readByte (memPut m a b) a = some b := by
  rw [readByte_of_lt _ ha, memByte_memPut_self hm]

/-- Settles O21: a write inside memory is one `memPut`, and the laws of `memPut` give the round trip and the frame. -/
theorem byteWriteThenReadRoundTrips : Obligations.ByteWriteThenReadRoundTrips := by
  intro m a b hm
  refine ⟨fun ha => ?written, fun ha => ⟨_, readByte_of_lt m ha⟩, fun ha => ⟨writeByte_eq_none.2 ha, readByte_eq_none.2 ha⟩⟩
  case written =>
    exact ⟨_, writeByte_of_lt m ha b, memPut_wf hm ha b, readByte_memPut_self hm ha b,
      fun c hc => readByte_congr (memByte_memPut_ne m b hc)⟩

/-- Settles O22: the bounds check comes before the run of stores, and the laws of that run give its contents and frame. -/
theorem runWriteIsAllOrNothing : Obligations.RunWriteIsAllOrNothing := by
  intro m a bs hm
  refine ⟨memWrite_eq_none.2, fun hfit => ?fits⟩
  case fits =>
    have hrun : memWrite m a bs = some (memPutRun m a bs) := memWrite_eq_some.2 ⟨hfit, rfl⟩
    exact ⟨_, hrun, memWrite_wf hm hrun, memByte_memPutRun_inside bs hm hfit,
      fun _ hc => memByte_memPutRun_outside bs m a hc⟩

end Sys2Proof.Machine
end

section
/-! The words of the jump and of the two immediate skips (30_encoding.md R97), what each does to `PC`, and the two statements
about them (41_control_flow.md R131, R135, R136). -/

namespace Sys2Proof.Machine

/-! ## The words, active in both opcode sets -/

theorem decode_encode_jp (o : OpSet) (nnn : Addr) : decode o (encode (.jp nnn)) = some (.jp nnn) := by
  simp [decode_eq_decodeByMajor, decodeByMajor, encode]

theorem decode_encode_seImm (o : OpSet) (x : Reg) (kk : Byte) : decode o (encode (.seImm x kk)) = some (.seImm x kk) := by
  simp [decode_eq_decodeByMajor, decodeByMajor, encode]

theorem decode_encode_sneImm (o : OpSet) (x : Reg) (kk : Byte) : decode o (encode (.sneImm x kk)) = some (.sneImm x kk) := by
  simp [decode_eq_decodeByMajor, decodeByMajor, encode]

/-! ## The meanings -/

/-- The jump writes `PC` (R131). -/
theorem exec_jp (nnn : Addr) (s : State) : exec (.jp nnn) s = .next (s.setPc (nnn.setWidth 16)) := rfl

/-- The skip on equality, its condition a comparison of numbers (R135). -/
theorem exec_seImm (x : Reg) (kk : Byte) (s : State) : exec (.seImm x kk) s =
    .next { s with pc := if (s.getV x).toNat = kk.toNat then s.pc + 2#16 else s.pc } :=
  have hcond : (s.getV x == kk) = true ↔ (s.getV x).toNat = kk.toNat := by rw [beq_iff_eq, BitVec.toNat_inj]
  congrArg Host.Outcome.next (s.skipIf_eq _ _ hcond)

/-- The skip on inequality, its condition a comparison of numbers (R136). -/
theorem exec_sneImm (x : Reg) (kk : Byte) (s : State) : exec (.sneImm x kk) s =
    .next { s with pc := if (s.getV x).toNat ≠ kk.toNat then s.pc + 2#16 else s.pc } :=
  have hcond : (s.getV x != kk) = true ↔ (s.getV x).toNat ≠ kk.toNat := by rw [bne_iff_ne, ne_eq, ne_eq, BitVec.toNat_inj]
  congrArg Host.Outcome.next (s.skipIf_eq _ _ hcond)

/-! ## The statements -/

/-- Settles O24: the sum is the jump's word, and the jump is one write of `PC`, which the 12-bit target fits. -/
theorem jumpSetsTheAbsoluteTarget : Obligations.JumpSetsTheAbsoluteTarget := by
  intro o s nnn
  refine ⟨?word, _, exec_jp nnn s, rfl, ?target⟩
  case word =>
    rw [ofNat_eq_encAnnn 0x1#4 nnn 0x1000 rfl]
    exact decode_encode_jp o nnn
  case target =>
    exact BitVec.toNat_setWidth_of_le (by decide)

/-- Settles O25: the sums are the skips' words, and each skip is one write of `PC` under its comparison. -/
theorem immediateSkipsCompareWithTheByte : Obligations.ImmediateSkipsCompareWithTheByte := by
  intro o s x kk
  refine ⟨?seWord, ?sneWord, ⟨_, exec_seImm x kk s, rfl⟩, ⟨_, exec_sneImm x kk s, rfl⟩⟩
  case seWord =>
    rw [ofNat_eq_encAxkk 0x3#4 x kk 0x3000 rfl]
    exact decode_encode_seImm o x kk
  case sneWord =>
    rw [ofNat_eq_encAxkk 0x4#4 x kk 0x4000 rfl]
    exact decode_encode_sneImm o x kk

end Sys2Proof.Machine
end

section
/-! The words of the immediate load, the immediate add and the register add (30_encoding.md R97), what each does to the
registers, and the three statements about them (42_register_alu.md R170, R171, R176). -/

namespace Sys2Proof.Machine

/-! ## The words, active in both opcode sets -/

theorem decode_encode_ldImm (o : OpSet) (x : Reg) (kk : Byte) : decode o (encode (.ldImm x kk)) = some (.ldImm x kk) := by
  simp [decode_eq_decodeByMajor, decodeByMajor, encode]

theorem decode_encode_addImm (o : OpSet) (x : Reg) (kk : Byte) : decode o (encode (.addImm x kk)) = some (.addImm x kk) := by
  simp [decode_eq_decodeByMajor, decodeByMajor, encode]

theorem decode_encode_addReg (o : OpSet) (x y : Reg) : decode o (encode (.addReg x y)) = some (.addReg x y) := by
  simp [decode_eq_decodeByMajor, decodeByMajor, encode]

/-! ## The register written, the flag, and the others -/

theorem State.getV_setV_self (s : State) (r : Reg) (b : Byte) : (s.setV r b).getV r = b := by
  rw [State.getV_setV, if_pos rfl]

theorem State.getV_setV_ne (s : State) {r q : Reg} (b : Byte) (h : q ≠ r) : (s.setV r b).getV q = s.getV q := by
  rw [State.getV_setV, if_neg h]

/-- The flag is written last, so VF holds it whatever the result's register is (R183). -/
theorem State.getV_setResultFlag_vf (s : State) (x : Reg) (b f : Byte) : (s.setResultFlag x b f).getV vf = f :=
  State.getV_setV_self _ vf f

/-- The result stays in its register unless the flag overwrites it (R183). -/
theorem State.getV_setResultFlag_self (s : State) {x : Reg} (b f : Byte) (h : x ≠ vf) :
    (s.setResultFlag x b f).getV x = b := by
  rw [State.getV_setResultFlag, if_neg h, if_pos rfl]

theorem State.getV_setResultFlag_ne (s : State) {x q : Reg} (b f : Byte) (hx : q ≠ x) (hf : q ≠ vf) :
    (s.setResultFlag x b f).getV q = s.getV q := by
  rw [State.getV_setResultFlag, if_neg hf, if_neg hx]

/-- The carry flag as a number: 1 exactly when the exact sum passes 255 (R176). -/
theorem flagByte_carryOf_toNat (a b : Byte) :
    (flagByte (carryOf a b)).toNat = if a.toNat + b.toNat > 255 then 1 else 0 := by
  simp only [flagByte_toNat, carryOf, decide_eq_true_eq]

/-! ## The meanings -/

/-- The load is one write of `V[x]` (R170). -/
theorem exec_ldImm (x : Reg) (kk : Byte) (s : State) : exec (.ldImm x kk) s = .next (s.setV x kk) := rfl

/-- The immediate add is one write of `V[x]`, and no flag (R171). -/
theorem exec_addImm (x : Reg) (kk : Byte) (s : State) :
    exec (.addImm x kk) s = .next (s.setV x (sumByte (s.getV x) kk)) := rfl

/-- The register add writes the sum, then the carry (R176). -/
theorem exec_addReg (x y : Reg) (s : State) : exec (.addReg x y) s =
    .next (s.setResultFlag x (sumByte (s.getV x) (s.getV y)) (flagByte (carryOf (s.getV x) (s.getV y)))) := rfl

/-! ## The statements -/

/-- Settles O33: the sum is the load's word, and the load is one write of `V[x]`. -/
theorem loadImmediateSetsTheRegister : Obligations.LoadImmediateSetsTheRegister := by
  intro o s x kk
  refine ⟨?word, _, exec_ldImm x kk s, rfl, s.getV_setV_self x kk, fun _ hr => s.getV_setV_ne kk hr⟩
  case word =>
    rw [ofNat_eq_encAxkk 0x6#4 x kk 0x6000 rfl]
    exact decode_encode_ldImm o x kk

/-- Settles O34: the sum is the add's word, and the add is one write of `V[x]`, so VF is a register like the others. -/
theorem addImmediateWrapsWithoutFlag : Obligations.AddImmediateWrapsWithoutFlag := by
  intro o s x kk
  refine ⟨?word, _, exec_addImm x kk s, rfl, ?sum, fun _ hr => s.getV_setV_ne _ hr⟩
  case word =>
    rw [ofNat_eq_encAxkk 0x7#4 x kk 0x7000 rfl]
    exact decode_encode_addImm o x kk
  case sum =>
    rw [State.getV_setV_self, sumByte_toNat]

/-- Settles O35: the sum is the add's word; the carry is written after the result, so it is what VF holds for every x. -/
theorem addRegistersSetsTheCarryLast : Obligations.AddRegistersSetsTheCarryLast := by
  intro o s x y
  refine ⟨?word, _, exec_addReg x y s, rfl, fun hx => ?sum, ?carry, fun _ hr hf => s.getV_setResultFlag_ne _ _ hr hf⟩
  case word =>
    rw [ofNat_eq_encAxyn_const 0x8#4 x y 0x4#4 0x8004 rfl]
    exact decode_encode_addReg o x y
  case sum =>
    rw [s.getV_setResultFlag_self _ _ hx, sumByte_toNat]
  case carry =>
    rw [State.getV_setResultFlag_vf, flagByte_carryOf_toNat]

end Sys2Proof.Machine
end

section
/-! The word of the index load (30_encoding.md R97), what it does to `I`, and the statement about it
(43_index_memory.md R220). -/

namespace Sys2Proof.Machine

theorem decode_encode_ldI (o : OpSet) (nnn : Addr) : decode o (encode (.ldI nnn)) = some (.ldI nnn) := by
  simp [decode_eq_decodeByMajor, decodeByMajor, encode]

/-- A write of `I` keeps the low 12 bits, so a 12-bit address is stored as it is. -/
theorem State.setI_addr_i_toNat (s : State) (nnn : Addr) : (s.setI (nnn.setWidth 16)).i.toNat = nnn.toNat := by
  rw [State.setI_i, and_0xFFF_toNat, BitVec.toNat_setWidth_of_le (by decide), Nat.mod_eq_of_lt nnn.isLt]

/-- The load is one write of `I` (R220). -/
theorem exec_ldI (nnn : Addr) (s : State) : exec (.ldI nnn) s = .next (s.setI (nnn.setWidth 16)) := rfl

/-- Settles O41: the sum is the load's word, and the load is one write of `I`, which the 12-bit address fits. -/
theorem loadIndexSetsTheAddress : Obligations.LoadIndexSetsTheAddress := by
  intro o s nnn
  refine ⟨?word, _, exec_ldI nnn s, rfl, s.setI_addr_i_toNat nnn⟩
  case word =>
    rw [ofNat_eq_encAnnn 0xA#4 nnn 0xA000 rfl]
    exact decode_encode_ldI o nnn

end Sys2Proof.Machine
end

section
/-! The word of the display clear (30_encoding.md R97), what it does to `DISP`, and the statement about it
(44_display.md R260, R262). -/

namespace Sys2Proof.Machine

/-- The clear's row is active in both opcode sets, and its full mask puts it before the SYS row (R96). -/
theorem decode_encode_cls (o : OpSet) : decode o (encode .cls) = some .cls := by
  rw [decode_eq_decodeByMajor]
  rfl

/-- The clear is one write of `DISP` (R262). -/
theorem exec_cls (s : State) : exec .cls s = .next { s with disp := displayClear } := rfl

/-- Settles O46: the word is the clear's, and the clear is one write of `DISP`, every pixel of which is 0. -/
theorem clearTurnsEveryPixelOff : Obligations.ClearTurnsEveryPixelOff := by
  intro o s
  exact ⟨decode_encode_cls o, _, exec_cls s, rfl, pixel_displayClear⟩

end Sys2Proof.Machine
end

section
/-! The words of the three timer moves (30_encoding.md R97), what each does to its one destination, and the statement about
them (45_timers_keypad.md R290, R291, R292). -/

namespace Sys2Proof.Machine

/-! ## The words, active in both opcode sets -/

theorem decode_encode_ldVxDt (o : OpSet) (x : Reg) : decode o (encode (.ldVxDt x)) = some (.ldVxDt x) := by
  simp [decode_eq_decodeByMajor, decodeByMajor, encode]

theorem decode_encode_ldDtVx (o : OpSet) (x : Reg) : decode o (encode (.ldDtVx x)) = some (.ldDtVx x) := by
  simp [decode_eq_decodeByMajor, decodeByMajor, encode]

theorem decode_encode_ldStVx (o : OpSet) (x : Reg) : decode o (encode (.ldStVx x)) = some (.ldStVx x) := by
  simp [decode_eq_decodeByMajor, decodeByMajor, encode]

/-! ## The meanings -/

/-- The read of the delay timer is one write of `V[x]` (R290). -/
theorem exec_ldVxDt (x : Reg) (s : State) : exec (.ldVxDt x) s = .next (s.setV x s.dt) := rfl

/-- The load of the delay timer is one write of `DT` (R291). -/
theorem exec_ldDtVx (x : Reg) (s : State) : exec (.ldDtVx x) s = .next { s with dt := s.getV x } := rfl

/-- The load of the sound timer is one write of `ST`: `out` stays, so it puts out no beep (R292, D14). -/
theorem exec_ldStVx (x : Reg) (s : State) : exec (.ldStVx x) s = .next { s with st := s.getV x } := rfl

/-! ## The statement -/

/-- Settles O50: the sums are the moves' words, and each move is one write of its destination. -/
theorem timerMovesCopyOneByte : Obligations.TimerMovesCopyOneByte := by
  intro o s x
  refine ⟨?readWord, ?dtWord, ?stWord, ?read, ⟨_, exec_ldDtVx x s, rfl⟩, ⟨_, exec_ldStVx x s, rfl⟩⟩
  case readWord =>
    rw [ofNat_eq_encAxss 0xF#4 x 0x07#8 0xF007 rfl]
    exact decode_encode_ldVxDt o x
  case dtWord =>
    rw [ofNat_eq_encAxss 0xF#4 x 0x15#8 0xF015 rfl]
    exact decode_encode_ldDtVx o x
  case stWord =>
    rw [ofNat_eq_encAxss 0xF#4 x 0x18#8 0xF018 rfl]
    exact decode_encode_ldStVx o x
  case read =>
    exact ⟨_, exec_ldVxDt x s, rfl, s.getV_setV_self x s.dt, fun _ hr => s.getV_setV_ne s.dt hr⟩

end Sys2Proof.Machine
end

section
/-! The tick of each timer in a running state, as an event and as the step that the schedule names (60_exceptions.md R335),
and the statement about the two timers (R333). -/

namespace Sys2Proof.Machine

/-- In a running state `dt_tick` is one tick of the delay timer (R335). -/
theorem runEvent_dtTick {s : State} (h : s.status = .running) : runEvent .dtTick s = .next (delayTick s) :=
  whileRunning_running h fun s => .next (delayTick s)

/-- In a running state `st_tick` is one tick of the sound timer (R335). -/
theorem runEvent_stTick {s : State} (h : s.status = .running) : runEvent .stTick s = .next (soundTick s) :=
  whileRunning_running h fun s => .next (soundTick s)

theorem step_dtTick {s : State} {rest : List Event} (hrun : s.status = .running) (hs : s.schedule = .dtTick :: rest) :
    step s = .next (delayTick { s with schedule := rest }) :=
  (step_scheduled hs).trans (runEvent_dtTick hrun)

theorem step_stTick {s : State} {rest : List Event} (hrun : s.status = .running) (hs : s.schedule = .stTick :: rest) :
    step s = .next (soundTick { s with schedule := rest }) :=
  (step_scheduled hs).trans (runEvent_stTick hrun)

/-- Settles O15: a tick writes its own timer and `out` alone, and `tickDown` is the subtraction of 1 that stops at 0. -/
theorem timerTicksCountDownToZero : Obligations.TimerTicksCountDownToZero := by
  intro s rest hrun
  refine ⟨fun hs => ?delay, fun hs => ?sound⟩
  case delay => exact ⟨_, step_dtTick hrun hs, rfl, tickDown_toNat s.dt⟩
  case sound => exact ⟨_, step_stTick hrun hs, rfl, tickDown_toNat s.st⟩

end Sys2Proof.Machine
end

section
/-! The decoder and the encoder are inverse to each other (30_encoding.md R92, R96), the precedence of the rows (R96), and
what each opcode set decodes (R98, R101). -/

namespace Sys2Proof

/-! ## Well-formed instructions -/

theorem Instr.wellFormed_iff (o : OpSet) (i : Instr) :
    i.wellFormed o = true ↔ i.activeIn o = true ∧ i.notShadowed = true := by
  rw [Instr.wellFormed, Bool.and_eq_true]

/-- Every row is active under FULL (R98). -/
@[simp] theorem Instr.activeIn_full (i : Instr) : i.activeIn .full = true := rfl

@[simp] theorem Instr.activeIn_baseline (i : Instr) : i.activeIn .baseline = i.inBaseline := rfl

theorem Instr.notShadowed_sys (nnn : Addr) : (Instr.sys nnn).notShadowed = true ↔ nnn ≠ 0x0E0#12 ∧ nnn ≠ 0x0EE#12 := by
  simp [Instr.notShadowed]

/-- Under FULL no row is refused (R98). -/
@[simp] theorem ifActive_full (i : Instr) : ifActive .full i = some i := rfl

theorem ifActive_of_active {o : OpSet} {i : Instr} (h : i.activeIn o = true) : ifActive o i = some i := if_pos h

/-- The word of SYS is its address (R92). -/
theorem encode_sys_toNat (nnn : Addr) : (encode (.sys nnn)).toNat = nnn.toNat := by
  rw [encode, encAnnn_toNat]; simp

/-- A word of SYS below 0x1000 is the one of the same address (R92). -/
theorem encode_sys_eq_iff (nnn c : Addr) : encode (.sys nnn) = encode (.sys c) ↔ nnn = c := by
  rw [← BitVec.toNat_inj, encode_sys_toNat, encode_sys_toNat, BitVec.toNat_inj]

/-! ## Decode and encode -/

/-- The words 0x00E0 and 0x00EE belong to more specific rows; every other word with major opcode 0 is one of SYS (R100). -/
theorem decode_encode_sys {o : OpSet} {nnn : Addr} (hactive : (Instr.sys nnn).activeIn o = true)
    (hshadow : (Instr.sys nnn).notShadowed = true) : decode o (encode (.sys nnn)) = some (.sys nnn) := by
  obtain ⟨hcls, hret⟩ := (Instr.notShadowed_sys nnn).1 hshadow
  have h1 : encAnnn 0x0#4 nnn ≠ 0x00E0#16 := mt (encode_sys_eq_iff nnn 0x0E0#12).1 hcls
  have h2 : encAnnn 0x0#4 nnn ≠ 0x00EE#16 := mt (encode_sys_eq_iff nnn 0x0EE#12).1 hret
  simp [decode_eq_decodeByMajor, decodeByMajor, encode, h1, h2, ifActive_of_active hactive]

/-- The fields that the decoder reads from an encoded word are the operands, and its row is found by the major opcode and the
sub-opcode (R91, R96). -/
theorem decode_encode {o : OpSet} {i : Instr} (h : i.wellFormed o = true) : decode o (encode i) = some i := by
  obtain ⟨hactive, hshadow⟩ := (Instr.wellFormed_iff o i).1 h
  have hon := ifActive_of_active hactive
  cases i
  case sys nnn => exact decode_encode_sys hactive hshadow
  case cls => rw [decode_eq_decodeByMajor]; rfl
  case ret => rw [decode_eq_decodeByMajor]; exact hon
  all_goals simp [decode_eq_decodeByMajor, decodeByMajor, encode, hon]

/-- Settles O1. -/
theorem decodeOfEncodeIsTheInstruction : Obligations.DecodeOfEncodeIsTheInstruction :=
  fun _ _ h => decode_encode h

/-- What a row builds is one of the 13 exactly if the row is marked so (R97). -/
theorem build_inBaseline {r : OpRow} (hr : r ∈ opRows) (op : Word) : (r.build op).inBaseline = r.inBaseline := by
  have hall : opRows.all (fun r => (r.build op).inBaseline == r.inBaseline) = true := rfl
  exact beq_iff_eq.1 (List.all_eq_true.1 hall r hr)

theorem build_activeIn {r : OpRow} (hr : r ∈ opRows) (o : OpSet) (op : Word) :
    (r.build op).activeIn o = rowActive o r := by
  cases o with
  | baseline => exact build_inBaseline hr op
  | full => rfl

theorem encode_of_decode {o : OpSet} {op : Word} {i : Instr} (h : decode o op = some i) : encode i = op := by
  obtain ⟨r, hr, -, hmatch, rfl⟩ := decode_some_row h
  exact encode_build hr hmatch

theorem active_of_decode {o : OpSet} {op : Word} {i : Instr} (h : decode o op = some i) : i.activeIn o = true := by
  obtain ⟨r, hr, hactive, -, rfl⟩ := decode_some_row h
  rw [build_activeIn hr, hactive]

/-- The word of CLS is never SYS: the row of CLS is active in both opcode sets (R96). -/
theorem decode_clsWord_ne_sys (o : OpSet) (a : Addr) : decode o (encode (.sys 0x0E0#12)) ≠ some (.sys a) := by
  have hword : encode (.sys 0x0E0#12) = encode .cls := by decide
  rw [hword, Machine.decode_encode_cls]; exact nofun

/-- The word of RET is never SYS: the two rows are active in the same opcode set (R96, R98). -/
theorem decode_retWord_ne_sys (o : OpSet) (a : Addr) : decode o (encode (.sys 0x0EE#12)) ≠ some (.sys a) := by
  have hword : decode o (encode (.sys 0x0EE#12)) = ifActive o .ret := decode_eq_decodeByMajor o _
  rw [hword]
  cases o with
  | baseline => exact nofun
  | full => rw [ifActive_full]; exact nofun

theorem notShadowed_of_decode {o : OpSet} {op : Word} {i : Instr} (h : decode o op = some i) : i.notShadowed = true := by
  cases i
  case sys nnn =>
    rw [Instr.notShadowed_sys]
    rw [← encode_of_decode h] at h
    exact ⟨by rintro rfl; exact decode_clsWord_ne_sys o _ h, by rintro rfl; exact decode_retWord_ne_sys o _ h⟩
  all_goals rfl

theorem wellFormed_of_decode {o : OpSet} {op : Word} {i : Instr} (h : decode o op = some i) : i.wellFormed o = true :=
  (Instr.wellFormed_iff o i).2 ⟨active_of_decode h, notShadowed_of_decode h⟩

/-- Settles O2. -/
theorem encodeOfDecodeIsTheWord : Obligations.EncodeOfDecodeIsTheWord :=
  fun _ _ _ h => ⟨encode_of_decode h, wellFormed_of_decode h⟩

/-- Decoding to an instruction is: it is well-formed, and the word is its word. -/
theorem decode_eq_some_iff {o : OpSet} {op : Word} {i : Instr} :
    decode o op = some i ↔ i.wellFormed o = true ∧ encode i = op :=
  ⟨fun h => ⟨wellFormed_of_decode h, encode_of_decode h⟩, fun ⟨hw, he⟩ => he ▸ decode_encode hw⟩

/-- Settles O5: both sides decode the words of the instructions that are well-formed under FULL and baseline rows. -/
theorem baselineDecodesTheThirteenRows : Obligations.BaselineDecodesTheThirteenRows := by
  intro op
  ext i
  simp only [Option.filter_eq_some_iff, decode_eq_some_iff, Instr.wellFormed_iff, Instr.activeIn_full,
    Instr.activeIn_baseline]
  tauto

/-! ## The precedence of the rows (R96) -/

/-- The decoder's order of masks is by falling number of bits. -/
theorem maskOrder_pairwise : maskOrder.Pairwise fun m n => maskBits n ≤ maskBits m := by decide

theorem mask_mem_maskOrder {r : OpRow} (hr : r ∈ opRows) : r.mask ∈ maskOrder := by
  have hall : opRows.all (fun r => decide (r.mask ∈ maskOrder)) = true := by decide
  exact of_decide_eq_true (List.all_eq_true.1 hall r hr)

/-- No two rows have one mask and one match value. -/
theorem opRows_pairwise : opRows.Pairwise fun q r => ¬(q.mask = r.mask ∧ q.val = r.val) := by
  have hnodup : (opRows.map fun r => (r.mask, r.val)).Nodup := by decide
  exact (List.pairwise_map.1 hnodup).imp fun hne heq => hne (Prod.ext heq.1 heq.2)

/-- The row that the decoder looks for under one mask. -/
def rowOfMask (o : OpSet) (op m : Word) : Option OpRow :=
  opRows.find? fun r => r.mask == m && rowActive o r && rowMatches op r

theorem decode_eq_rowOfMask (o : OpSet) (op : Word) :
    decode o op = (maskOrder.findSome? (rowOfMask o op)).map fun r => r.build op := rfl

theorem rowOfMask_some {o : OpSet} {op m : Word} {r : OpRow} (h : rowOfMask o op m = some r) :
    r ∈ opRows ∧ r.mask = m ∧ rowActive o r = true ∧ op &&& r.mask = r.val := by
  have hp := List.find?_some h
  simp only [Bool.and_eq_true, beq_iff_eq, rowMatches] at hp
  exact ⟨List.mem_of_find?_eq_some h, hp.1.1, hp.1.2, hp.2⟩

theorem rowOfMask_none {o : OpSet} {op m : Word} : rowOfMask o op m = none ↔
    ∀ q ∈ opRows, q.mask = m → rowActive o q = true → op &&& q.mask ≠ q.val := by
  simp [rowOfMask, rowMatches, List.find?_eq_none]

/-- An active row that matches has at most as many mask bits as the row the search stops at: a longer mask comes before. -/
theorem maskBits_le_of_found {o : OpSet} {op : Word} {r q : OpRow} (hfound : maskOrder.findSome? (rowOfMask o op) = some r)
    (hq : q ∈ opRows) (hactive : rowActive o q = true) (hmatch : op &&& q.mask = q.val) :
    maskBits q.mask ≤ maskBits r.mask := by
  obtain ⟨before, m, after, hsplit, hm, hbefore⟩ := List.findSome?_eq_some_iff.1 hfound
  obtain ⟨-, rfl, -, -⟩ := rowOfMask_some hm
  have hmem := mask_mem_maskOrder hq
  have horder := maskOrder_pairwise
  rw [hsplit] at hmem horder
  rcases List.mem_append.1 hmem with hq_before | hq_after
  · exact absurd hmatch (rowOfMask_none.1 (hbefore _ hq_before) q hq rfl hactive)
  · rcases List.mem_cons.1 hq_after with heq | hq_after
    · rw [heq]
    · exact (List.pairwise_cons.1 (List.pairwise_append.1 horder).2.1).1 _ hq_after

/-- Settles O3: the search goes through the masks from the longest on, and through all rows of each. -/
theorem decoderTakesTheMostSpecificActiveRow : Obligations.DecoderTakesTheMostSpecificActiveRow := by
  intro o op
  refine ⟨fun i h => ?found, ?refused, opRows_pairwise⟩
  case found =>
    rw [decode_eq_rowOfMask, Option.map_eq_some_iff] at h
    obtain ⟨r, hfound, rfl⟩ := h
    obtain ⟨m, -, hm⟩ := List.exists_of_findSome?_eq_some hfound
    obtain ⟨hr, -, hactive, hmatch⟩ := rowOfMask_some hm
    exact ⟨r, hr, hactive, hmatch, rfl, fun q hq ha hv => maskBits_le_of_found hfound hq ha hv⟩
  case refused =>
    simp only [decode_eq_rowOfMask, Option.map_eq_none_iff, List.findSome?_eq_none_iff, rowOfMask_none]
    exact ⟨fun h q hq => h q.mask (mask_mem_maskOrder hq) q hq rfl, fun h _ _ q hq _ => h q hq⟩

/-! ## Unknown opcodes (R101) -/

theorem fieldMajor_toNat (op : Word) : (fieldMajor op).toNat = op.toNat / 4096 := by
  simp only [fieldMajor, BitVec.extractLsb'_toNat, Nat.shiftRight_eq_div_pow]
  have := op.isLt; omega

theorem fieldKk_toNat (op : Word) : (fieldKk op).toNat = op.toNat % 256 := by
  simp [fieldKk, BitVec.extractLsb'_toNat]

theorem fieldN_toNat (op : Word) : (fieldN op).toNat = op.toNat % 16 := by
  simp [fieldN, BitVec.extractLsb'_toNat]

/-- The six ranges, in the fields that the decoder reads (R91). -/
theorem unknownInFull_iff (op : Word) : unknownInFull op ↔
    (fieldMajor op = 0x0#4 ∧ op ≠ 0x00E0#16 ∧ op ≠ 0x00EE#16) ∨
    (fieldMajor op = 0x5#4 ∧ fieldN op ≠ 0x0#4) ∨
    (fieldMajor op = 0x8#4 ∧ fieldN op ∈ [0x8#4, 0x9#4, 0xA#4, 0xB#4, 0xC#4, 0xD#4, 0xF#4]) ∨
    (fieldMajor op = 0x9#4 ∧ fieldN op ≠ 0x0#4) ∨
    (fieldMajor op = 0xE#4 ∧ fieldKk op ∉ [0x9E#8, 0xA1#8]) ∨
    (fieldMajor op = 0xF#4 ∧
      fieldKk op ∉ [0x07#8, 0x0A#8, 0x15#8, 0x18#8, 0x1E#8, 0x29#8, 0x33#8, 0x55#8, 0x65#8]) := by
  simp only [unknownInFull, ← fieldMajor_toNat, ← fieldKk_toNat, ← fieldN_toNat, List.mem_cons, List.not_mem_nil, or_false,
    ne_eq, ← BitVec.toNat_inj, BitVec.reduceToNat]

/-- Settles O4: the table of major opcodes answers nothing, or SYS, exactly in the six ranges; only major opcode 8 has more
sub-opcodes than a short chain of comparisons. -/
theorem unknownOpcodesOfTheFullSet : Obligations.UnknownOpcodesOfTheFullSet := by
  intro op
  rw [decode_eq_decodeByMajor, unknownInFull_iff, decodeByMajor]
  by_cases h8 : fieldMajor op = 0x8#4
  case pos =>
    rcases nibble_cases (fieldN op) with h | h | h | h | h | h | h | h | h | h | h | h | h | h | h | h <;> simp [h8, h]
  case neg =>
    rcases nibble_cases (fieldMajor op) with h | h | h | h | h | h | h | h | h | h | h | h | h | h | h | h <;> simp [h] at h8 ⊢
    all_goals split_ifs <;> simp [*]

/-- Settles O6. -/
theorem writtenWordsDecode : Obligations.WrittenWordsDecode := by
  unfold Obligations.WrittenWordsDecode
  decide

end Sys2Proof
end

section
/-! What an instruction answers, said once: it faults and writes the record alone, it waits, or it completes and has written
its own parts of the state (30_encoding.md R104 to R107). -/

namespace Sys2Proof.Machine

/-- The instruction ran to its end: a part of the state that is not its own is unchanged, `status` and `out` among them. A
proof gives the fields of the parts that are written; every other field holds by `rfl`. -/
structure Completes (ins : Instr) (s t : State) : Prop where
  v : ∀ r, ¬ ins.writesV s.params r → t.getV r = s.getV r := by intros; rfl
  i : (∀ nnn, ins ≠ .ldI nnn) → (∀ x, ins ≠ .addI x) → (∀ x, ins ≠ .ldF x) → (∀ x, ins ≠ .storeRegs x) →
    (∀ x, ins ≠ .loadRegs x) → t.i = s.i := by intros; rfl
  pc : ins.writesPc = false → t.pc = s.pc := by intros; rfl
  mem : (∀ x, ins ≠ .ldB x) → (∀ x, ins ≠ .storeRegs x) → t.mem = s.mem := by intros; rfl
  disp : ins ≠ .cls → (∀ x y n, ins ≠ .drw x y n) → t.disp = s.disp := by intros; rfl
  dt : (∀ x, ins ≠ .ldDtVx x) → t.dt = s.dt := by intros; rfl
  st : (∀ x, ins ≠ .ldStVx x) → t.st = s.st := by intros; rfl
  sp : (∀ nnn, ins ≠ .call nnn) → ins ≠ .ret → t.sp = s.sp := by intros; rfl
  stack : (∀ nnn, ins ≠ .call nnn) → t.stack = s.stack := by intros; rfl
  status : t.status = s.status := by rfl
  params : t.params = s.params := by rfl
  schedule : t.schedule = s.schedule := by rfl
  input : t.input = s.input := by rfl
  draws : t.draws = s.draws := by rfl
  loadOpen : t.loadOpen = s.loadOpen := by rfl
  out : t.out = s.out := by rfl

/-- The three ways an instruction ends (30_encoding.md R105). -/
inductive Answers (i : Instr) (s : State) : State → Prop
  | faults (k : FaultKind) (d : FaultDetail) (hi : i.mayFault = true)
      (hk : k ≠ .registerIndexOutOfBounds ∧ k ≠ .invalidByteValue) : Answers i s (raiseIn i k d s)
  | waits (x : Reg) (hi : i = .ldVxK x) (hk : s.input.keyEvent = none) : Answers i s s.wait
  | completes {t : State} (h : Completes i s t) : Answers i s t

/-- A logic result writes registers and nothing else. -/
theorem State.setLogicResult_eq (s : State) (x : Reg) (b : Byte) :
    s.setLogicResult x b = { s with v := (s.setLogicResult x b).v } := by
  unfold State.setLogicResult; split <;> rfl

theorem State.getV_setLogicResult_ne (s : State) {x q : Reg} (b : Byte)
    (h : ¬(q = x ∨ s.params.qLogicClearsVf = true ∧ q = vf)) : (s.setLogicResult x b).getV q = s.getV q := by
  rw [State.getV_setLogicResult, if_neg fun hq => h (.inr hq), if_neg fun hq => h (.inl hq)]

/-! ## Instructions that write alike -/

theorem completes_setV {i : Instr} {s : State} {x : Reg} (b : Byte) (hi : ∀ r, r = x → i.writesV s.params r) :
    Completes i s (s.setV x b) :=
  { v := fun r h => s.getV_setV_ne b fun hr => h (hi r hr) }

theorem completes_setResultFlag {i : Instr} {s : State} {x : Reg} (b f : Byte)
    (hi : ∀ r, r = x ∨ r = vf → i.writesV s.params r) : Completes i s (s.setResultFlag x b f) :=
  { v := fun r h => s.getV_setResultFlag_ne b f (fun hr => h (hi r (.inl hr))) fun hr => h (hi r (.inr hr)) }

theorem completes_setLogicResult {i : Instr} {s : State} {x : Reg} (b : Byte)
    (hi : ∀ r, r = x ∨ s.params.qLogicClearsVf = true ∧ r = vf → i.writesV s.params r) :
    Completes i s (s.setLogicResult x b) := by
  have hv : ∀ r, ¬ i.writesV s.params r → (s.setLogicResult x b).getV r = s.getV r :=
    fun r h => s.getV_setLogicResult_ne b fun hr => h (hi r hr)
  rw [State.setLogicResult_eq] at hv ⊢
  exact { v := hv }

theorem completes_setPc {i : Instr} {s : State} (a : Word) (hi : i.writesPc = true) : Completes i s (s.setPc a) :=
  { pc := fun h => absurd (hi.symm.trans h) nofun }

theorem completes_skipIf {i : Instr} {s : State} (c : Bool) (hi : i.writesPc = true) : Completes i s (s.skipIf c) := by
  cases c with
  | false => exact {}
  | true => exact completes_setPc _ hi

/-! ## Every instruction -/

/-- Every register that Fx65 may not write is outside the run it loads (43_index_memory.md R225). -/
theorem getV_regsPutRun_ne {v : RegFile} {bs : List Byte} {r : Reg} (h : bs.length ≤ r.toNat) :
    (regsPutRun v 0 bs)[r.toNat] = v[r.toNat] := by
  rw [regsPutRun_get, dif_neg (by omega)]

/-- Every instruction answers a next state, in one of the three ways. -/
theorem exec_answers (i : Instr) (s : State) : ∃ t, exec i s = .next t ∧ Answers i s t := by
  cases i
  case cls => exact ⟨_, rfl, .completes { disp := fun h => absurd rfl h }⟩
  case ret =>
    rcases execRet_cases s with ⟨-, h⟩ | ⟨-, h⟩ <;> refine ⟨_, h, ?_⟩
    · exact .faults _ _ rfl (by decide)
    · exact .completes { pc := nofun, sp := fun _ h => absurd rfl h }
  case sys nnn => exact ⟨_, rfl, .faults _ _ rfl (by decide)⟩
  case jp nnn => exact ⟨_, rfl, .completes (completes_setPc _ rfl)⟩
  case call nnn =>
    rcases execCall_cases nnn s with ⟨-, h⟩ | ⟨-, h⟩ <;> refine ⟨_, h, ?_⟩
    · exact .faults _ _ rfl (by decide)
    · exact .completes { pc := nofun, sp := fun h => absurd rfl (h nnn), stack := fun h => absurd rfl (h nnn) }
  case seImm x kk => exact ⟨_, rfl, .completes (completes_skipIf _ rfl)⟩
  case sneImm x kk => exact ⟨_, rfl, .completes (completes_skipIf _ rfl)⟩
  case seReg x y => exact ⟨_, rfl, .completes (completes_skipIf _ rfl)⟩
  case ldImm x kk => exact ⟨_, rfl, .completes (completes_setV _ fun _ h => h)⟩
  case addImm x kk => exact ⟨_, rfl, .completes (completes_setV _ fun _ h => h)⟩
  case ldReg x y => exact ⟨_, rfl, .completes (completes_setV _ fun _ h => h)⟩
  case orReg x y => exact ⟨_, rfl, .completes (completes_setLogicResult _ fun _ h => h)⟩
  case andReg x y => exact ⟨_, rfl, .completes (completes_setLogicResult _ fun _ h => h)⟩
  case xorReg x y => exact ⟨_, rfl, .completes (completes_setLogicResult _ fun _ h => h)⟩
  case addReg x y => exact ⟨_, rfl, .completes (completes_setResultFlag _ _ fun _ h => h)⟩
  case subReg x y => exact ⟨_, rfl, .completes (completes_setResultFlag _ _ fun _ h => h)⟩
  case shr x y => exact ⟨_, rfl, .completes (completes_setResultFlag _ _ fun _ h => h)⟩
  case subn x y => exact ⟨_, rfl, .completes (completes_setResultFlag _ _ fun _ h => h)⟩
  case shl x y => exact ⟨_, rfl, .completes (completes_setResultFlag _ _ fun _ h => h)⟩
  case sneReg x y => exact ⟨_, rfl, .completes (completes_skipIf _ rfl)⟩
  case ldI nnn => exact ⟨_, rfl, .completes { i := fun h => absurd rfl (h nnn) }⟩
  case jpV0 nnn => exact ⟨_, rfl, .completes (completes_setPc _ rfl)⟩
  case rnd x kk => exact ⟨_, rfl, .completes (completes_setV _ fun _ h => h)⟩
  case drw x y n =>
    rcases execDrw_cases x y n s with ⟨-, h⟩ | ⟨-, h⟩ <;> refine ⟨_, h, ?_⟩
    · exact .faults _ _ rfl (by decide)
    · exact .completes { v := fun _ h => State.getV_setV_ne _ _ h, disp := fun _ h => absurd rfl (h x y n) }
  case skp x => exact ⟨_, rfl, .completes (completes_skipIf _ rfl)⟩
  case sknp x => exact ⟨_, rfl, .completes (completes_skipIf _ rfl)⟩
  case ldVxDt x => exact ⟨_, rfl, .completes (completes_setV _ fun _ h => h)⟩
  case ldVxK x =>
    refine ⟨_, rfl, ?_⟩
    cases hk : s.input.keyEvent with
    | none => exact .waits x rfl hk
    | some k => exact .completes (completes_setV _ fun _ h => h)
  case ldDtVx x => exact ⟨_, rfl, .completes { dt := fun h => absurd rfl (h x) }⟩
  case ldStVx x => exact ⟨_, rfl, .completes { st := fun h => absurd rfl (h x) }⟩
  case addI x => exact ⟨_, rfl, .completes { i := fun _ h => absurd rfl (h x) }⟩
  case ldF x => exact ⟨_, rfl, .completes { i := fun _ _ h => absurd rfl (h x) }⟩
  case ldB x =>
    rcases execLdB_cases x s with ⟨-, h⟩ | ⟨-, h⟩ <;> refine ⟨_, h, ?_⟩
    · exact .faults _ _ rfl (by decide)
    · exact .completes { mem := fun h => absurd rfl (h x) }
  case storeRegs x =>
    rcases execStoreRegs_cases x s with ⟨-, h⟩ | ⟨-, h⟩ <;> refine ⟨_, h, ?_⟩
    · exact .faults _ _ rfl (by decide)
    · rw [State.advanceI_eq]
      exact .completes { mem := fun _ h => absurd rfl (h x), i := fun _ _ _ h => absurd rfl (h x) }
  case loadRegs x =>
    rcases execLoadRegs_cases x s with ⟨-, h⟩ | ⟨-, h⟩ <;> refine ⟨_, h, ?_⟩
    · exact .faults _ _ rfl (by decide)
    · rw [State.advanceI_eq]
      exact .completes
        { v := fun r h => getV_regsPutRun_ne (by simpa using Nat.lt_of_not_le h), i := fun _ _ _ _ h => absurd rfl (h x) }

/-- Settles O54. -/
theorem everyInstructionAnswersANextState : Obligations.EveryInstructionAnswersANextState :=
  fun i s => (exec_answers i s).imp fun _ h => h.1

theorem answers_of_exec {i : Instr} {s t : State} (h : exec i s = .next t) : Answers i s t := by
  obtain ⟨u, hu, ha⟩ := exec_answers i s
  cases hu.symm.trans h
  exact ha

/-! ## What an instruction leaves unchanged, part by part -/

section
variable {i : Instr} {s t : State} (h : exec i s = .next t)
include h

theorem exec_getV {r : Reg} (hr : ¬ i.writesV s.params r) : t.getV r = s.getV r :=
  match answers_of_exec h with
  | .faults .. => rfl
  | .waits .. => rfl
  | .completes c => c.v r hr

theorem exec_i (h1 : ∀ nnn, i ≠ .ldI nnn) (h2 : ∀ x, i ≠ .addI x) (h3 : ∀ x, i ≠ .ldF x) (h4 : ∀ x, i ≠ .storeRegs x)
    (h5 : ∀ x, i ≠ .loadRegs x) : t.i = s.i :=
  match answers_of_exec h with
  | .faults .. => rfl
  | .waits .. => rfl
  | .completes c => c.i h1 h2 h3 h4 h5

theorem exec_pc (hi : i.writesPc = false) : t.pc = s.pc :=
  match answers_of_exec h with
  | .faults .. => rfl
  | .waits _ hx _ => by subst hx; cases hi
  | .completes c => c.pc hi

theorem exec_mem (h1 : ∀ x, i ≠ .ldB x) (h2 : ∀ x, i ≠ .storeRegs x) : t.mem = s.mem :=
  match answers_of_exec h with
  | .faults .. => rfl
  | .waits .. => rfl
  | .completes c => c.mem h1 h2

theorem exec_disp (h1 : i ≠ .cls) (h2 : ∀ x y n, i ≠ .drw x y n) : t.disp = s.disp :=
  match answers_of_exec h with
  | .faults .. => rfl
  | .waits .. => rfl
  | .completes c => c.disp h1 h2

theorem exec_dt (h1 : ∀ x, i ≠ .ldDtVx x) : t.dt = s.dt :=
  match answers_of_exec h with
  | .faults .. => rfl
  | .waits .. => rfl
  | .completes c => c.dt h1

theorem exec_st (h1 : ∀ x, i ≠ .ldStVx x) : t.st = s.st :=
  match answers_of_exec h with
  | .faults .. => rfl
  | .waits .. => rfl
  | .completes c => c.st h1

theorem exec_sp (h1 : ∀ nnn, i ≠ .call nnn) (h2 : i ≠ .ret) : t.sp = s.sp :=
  match answers_of_exec h with
  | .faults .. => rfl
  | .waits .. => rfl
  | .completes c => c.sp h1 h2

theorem exec_stack (h1 : ∀ nnn, i ≠ .call nnn) : t.stack = s.stack :=
  match answers_of_exec h with
  | .faults .. => rfl
  | .waits .. => rfl
  | .completes c => c.stack h1

theorem exec_status (hi : i.mayFault = false) : t.status = s.status :=
  match answers_of_exec h with
  | .faults _ _ hf _ => absurd (hf.symm.trans hi) nofun
  | .waits .. => rfl
  | .completes c => c.status

theorem exec_out (hi : i.mayFault = false) (h1 : ∀ x, i ≠ .ldVxK x) : t.out = s.out :=
  match answers_of_exec h with
  | .faults _ _ hf _ => absurd (hf.symm.trans hi) nofun
  | .waits x hx _ => absurd hx (h1 x)
  | .completes c => c.out

theorem exec_params : t.params = s.params :=
  match answers_of_exec h with
  | .faults .. => rfl
  | .waits .. => rfl
  | .completes c => c.params

theorem exec_schedule : t.schedule = s.schedule :=
  match answers_of_exec h with
  | .faults .. => rfl
  | .waits .. => rfl
  | .completes c => c.schedule

theorem exec_input : t.input = s.input :=
  match answers_of_exec h with
  | .faults .. => rfl
  | .waits .. => rfl
  | .completes c => c.input

theorem exec_draws : t.draws = s.draws :=
  match answers_of_exec h with
  | .faults .. => rfl
  | .waits .. => rfl
  | .completes c => c.draws

theorem exec_loadOpen : t.loadOpen = s.loadOpen :=
  match answers_of_exec h with
  | .faults .. => rfl
  | .waits .. => rfl
  | .completes c => c.loadOpen

end

/-- Settles O55: the parts one by one. -/
theorem eachPartHasItsOnlyWriters : Obligations.EachPartHasItsOnlyWriters := by
  intro i s t h
  exact ⟨fun _ => exec_getV h, exec_pc h, exec_status h, exec_mem h, exec_disp h, exec_dt h, exec_st h,
    fun hcall => ⟨exec_stack h hcall, exec_sp h hcall⟩, exec_i h, exec_params h, exec_schedule h, exec_input h, exec_draws h,
    exec_loadOpen h, exec_out h⟩

end Sys2Proof.Machine
end

section
/-! The invariant of the block is kept by every part of the execute stage, by the CPU cycle, and by every agent
(10_state.md, 60_exceptions.md R322, R323, 70_reset_and_hazards.md R372). -/

namespace Sys2Proof.Machine

/-! ## The parts of the invariant in the execute stage -/

/-- A write to `I` leaves a 12-bit address (10_state.md R26). -/
theorem State.setI_i_le (s : State) (a : Word) : (s.setI a).i.toNat ≤ 0xFFF := by
  rw [State.setI_i, and_0xFFF_toNat]; omega

theorem State.advanceI_i_le {s : State} (x : Reg) (h : s.i.toNat ≤ 0xFFF) : (s.advanceI x).i.toNat ≤ 0xFFF := by
  rw [State.advanceI_i_toNat]; split <;> omega

theorem State.skipIf_pc_le (s : State) (c : Bool) {n : Nat} (h : s.pc.toNat + 2 ≤ n) : (s.skipIf c).pc.toNat ≤ n := by
  rw [State.skipIf_pc]
  split
  · exact (BitVec.toNat_add s.pc 2#16 ▸ Nat.mod_le _ _).trans h
  · omega

/-- The largest target of Bnnn (10_state.md R27). -/
theorem indexedTarget_le (nnn : Addr) (s : State) : (indexedTarget nnn s).toNat ≤ 0x10FE := by
  have hnnn := nnn.isLt
  have hreg := (s.getV (jumpReg nnn s)).isLt
  simp only [indexedTarget, BitVec.toNat_add, BitVec.toNat_setWidth]
  omega

theorem stackEntry_le {stack : List Word} {n : Nat} (h : ∀ a ∈ stack, a.toNat ≤ n) (k : Nat) :
    (stackEntry stack k).toNat ≤ n := by
  rw [stackEntry, List.getD_eq_getElem?_getD]
  cases hk : stack[k]? with
  | none => simp
  | some a => exact h a (List.mem_of_getElem? hk)

section
variable {i : Instr} {s t : State} (h : exec i s = .next t)
include h

theorem exec_keeps_memory (hm : Memory.wf s.mem = true) : Memory.wf t.mem = true := by
  cases i
  case ldB x =>
    rcases execLdB_cases x s with ⟨-, he⟩ | ⟨hfit, he⟩ <;> cases he.symm.trans h
    · exact hm
    · exact memPutRun_wf _ hm hfit
  case storeRegs x =>
    rcases execStoreRegs_cases x s with ⟨-, he⟩ | ⟨hfit, he⟩ <;> cases he.symm.trans h
    · exact hm
    · rw [State.advanceI_mem]
      exact memPutRun_wf _ hm (by rw [State.regsUpTo_length]; exact hfit)
  all_goals rw [exec_mem h nofun nofun]; exact hm

theorem exec_keeps_index (hi : s.i.toNat ≤ 0xFFF) : t.i.toNat ≤ 0xFFF := by
  cases i
  case ldI nnn => cases h; exact State.setI_i_le _ _
  case addI x => cases h; exact State.setI_i_le _ _
  case ldF x => cases h; exact State.setI_i_le _ _
  case storeRegs x =>
    rcases execStoreRegs_cases x s with ⟨-, he⟩ | ⟨-, he⟩ <;> cases he.symm.trans h
    · exact hi
    · exact State.advanceI_i_le x hi
  case loadRegs x =>
    rcases execLoadRegs_cases x s with ⟨-, he⟩ | ⟨-, he⟩ <;> cases he.symm.trans h
    · exact hi
    · exact State.advanceI_i_le x hi
  all_goals rw [exec_i h nofun nofun nofun nofun nofun]; exact hi

/-- The largest value any rule writes to `PC` is 0x10FE, given the fetch advanced it to at most 0x1000 (10_state.md R27). -/
theorem exec_keeps_counter (hlow : 2 ≤ s.pc.toNat) (hpc : s.pc.toNat ≤ 0x1000) (hstack : ∀ a ∈ s.stack, a.toNat ≤ 0x1000) :
    t.pc.toNat ≤ 0x10FE := by
  have haddr (nnn : Addr) : (nnn.setWidth 16 : Word).toNat ≤ 0x10FE := by
    have := nnn.isLt
    rw [BitVec.toNat_setWidth]; omega
  have hskip (c : Bool) : (s.skipIf c).pc.toNat ≤ 0x10FE := s.skipIf_pc_le c (by omega)
  cases i
  case jp nnn => cases h; exact haddr nnn
  case call nnn =>
    rcases execCall_cases nnn s with ⟨-, he⟩ | ⟨-, he⟩ <;> cases he.symm.trans h
    · exact hpc.trans (by decide)
    · exact haddr nnn
  case ret =>
    rcases execRet_cases s with ⟨-, he⟩ | ⟨-, he⟩ <;> cases he.symm.trans h
    · exact hpc.trans (by decide)
    · exact (stackEntry_le hstack _).trans (by decide)
  case jpV0 nnn => cases h; exact indexedTarget_le nnn s
  case seImm x kk => cases h; exact hskip _
  case sneImm x kk => cases h; exact hskip _
  case seReg x y => cases h; exact hskip _
  case sneReg x y => cases h; exact hskip _
  case skp x => cases h; exact hskip _
  case sknp x => cases h; exact hskip _
  case ldVxK x =>
    cases h
    cases s.input.keyEvent with
    | none =>
      rw [captureKey, State.wait_pc, BitVec.toNat_sub]
      simp only [BitVec.reduceToNat]; omega
    | some k => exact hpc.trans (by decide)
  all_goals rw [exec_pc h rfl]; exact hpc.trans (by decide)

theorem exec_keeps_stackSize : t.stack.length = s.stack.length := by
  cases i
  case call nnn =>
    rcases execCall_cases nnn s with ⟨-, he⟩ | ⟨-, he⟩ <;> cases he.symm.trans h
    · rfl
    · exact List.length_set
  all_goals rw [exec_stack h nofun]

theorem exec_keeps_stackPointer (hsp : s.sp ≤ s.params.stackDepth) : t.sp ≤ t.params.stackDepth := by
  rw [exec_params h]
  cases i
  case call nnn =>
    rcases execCall_cases nnn s with ⟨-, he⟩ | ⟨hne, he⟩ <;> cases he.symm.trans h
    · exact hsp
    · exact Nat.lt_of_le_of_ne hsp hne
  case ret =>
    rcases execRet_cases s with ⟨-, he⟩ | ⟨-, he⟩ <;> cases he.symm.trans h
    · exact hsp
    · exact (Nat.sub_le _ _).trans hsp
  all_goals rw [exec_sp h nofun nofun]; exact hsp

/-- A call pushes the advanced `PC`, at most 0x1000 (41_control_flow.md R132). -/
theorem exec_keeps_stackEntries (hpc : s.pc.toNat ≤ 0x1000) (hstack : ∀ a ∈ s.stack, a.toNat ≤ 0x1000) :
    ∀ a ∈ t.stack, a.toNat ≤ 0x1000 := by
  cases i
  case call nnn =>
    rcases execCall_cases nnn s with ⟨-, he⟩ | ⟨-, he⟩ <;> cases he.symm.trans h
    · exact hstack
    · intro a ha
      rcases List.mem_or_eq_of_mem_set ha with ha | rfl
      · exact hstack a ha
      · exact hpc
  all_goals rw [exec_stack h nofun]; exact hstack

/-- No BASELINE row is a call or a return (30_encoding.md R97, R98). -/
theorem exec_keeps_baselineStack (hi : i.inBaseline = true) : t.stack = s.stack ∧ t.sp = s.sp := by
  have hcall : ∀ nnn, i ≠ .call nnn := by rintro nnn rfl; cases hi
  have hret : i ≠ .ret := by rintro rfl; cases hi
  exact ⟨exec_stack h hcall, exec_sp h hcall hret⟩

theorem exec_keeps_faultKind
    (hs : ∀ r, s.status = .faulted r → r.kind ≠ .registerIndexOutOfBounds ∧ r.kind ≠ .invalidByteValue) (r : FaultRecord)
    (hr : t.status = .faulted r) : r.kind ≠ .registerIndexOutOfBounds ∧ r.kind ≠ .invalidByteValue := by
  cases answers_of_exec h with
  | faults k d hi hk => cases hr; exact hk
  | waits x hx hk => exact hs r hr
  | completes c => exact hs r (c.status ▸ hr)

/-- An active instruction that runs in the execute stage keeps the invariant. -/
theorem exec_keeps_inv (hs : s.Inv) (hlow : 2 ≤ s.pc.toNat) (hpc : s.pc.toNat ≤ 0x1000) (hclosed : s.loadOpen = false)
    (hactive : i.activeIn s.params.opset = true) : t.Inv where
  memory := exec_keeps_memory h hs.memory
  index := exec_keeps_index h hs.index
  counter := exec_keeps_counter h hlow hpc hs.stackEntries
  stackSize := by rw [exec_keeps_stackSize h, exec_params h]; exact hs.stackSize
  stackPointer := exec_keeps_stackPointer h hs.stackPointer
  stackEntries := exec_keeps_stackEntries h hpc hs.stackEntries
  baselineStack := fun hb => by
    rw [exec_params h] at hb
    rw [hb, Instr.activeIn_baseline] at hactive
    rw [(exec_keeps_baselineStack h hactive).2]
    exact hs.baselineStack hb
  faultKind := exec_keeps_faultKind h hs.faultKind
  loadWindow := fun ho => by rw [exec_loadOpen h, hclosed] at ho; cases ho

end

/-! ## The steps of the agents -/

/-- The invariant speaks of these fields alone. -/
theorem State.Inv.congr {s t : State} (hs : s.Inv) (hmem : t.mem = s.mem) (hi : t.i = s.i) (hpc : t.pc = s.pc)
    (hstack : t.stack = s.stack) (hsp : t.sp = s.sp) (hparams : t.params = s.params) (hstatus : t.status = s.status)
    (hload : t.loadOpen = s.loadOpen) : t.Inv where
  memory := hmem ▸ hs.memory
  index := hi ▸ hs.index
  counter := hpc ▸ hs.counter
  stackSize := by rw [hstack, hparams]; exact hs.stackSize
  stackPointer := by rw [hsp, hparams]; exact hs.stackPointer
  stackEntries := hstack ▸ hs.stackEntries
  baselineStack := by rw [hsp, hparams]; exact hs.baselineStack
  faultKind := hstatus ▸ hs.faultKind
  loadWindow := by rw [hload, hstatus]; exact hs.loadWindow

theorem State.Inv.dropEvent {s : State} (hs : s.Inv) : (dropEvent s).Inv :=
  hs.congr (dropEvent_mem s) (dropEvent_i s) (dropEvent_pc s) (dropEvent_stack s) (dropEvent_sp s) (dropEvent_params s)
    (dropEvent_status s) (dropEvent_loadOpen s)

/-- A fault of a CPU step, in which the load window is closed. -/
theorem State.Inv.takeFault {s : State} (hs : s.Inv) (hclosed : s.loadOpen = false) (r : FaultRecord)
    (hr : r.kind ≠ .registerIndexOutOfBounds ∧ r.kind ≠ .invalidByteValue) : (s.takeFault r).Inv :=
  { hs with
    faultKind := fun _ h => by cases h; exact hr
    loadWindow := fun ho => absurd (hclosed.symm.trans ho) nofun }

theorem State.Inv.beginCpu {s : State} (hs : s.Inv) (inp : CpuInput) : (s.beginCpu inp).Inv :=
  { hs with loadWindow := nofun }

theorem State.advance_pc_toNat {s : State} (h : s.pc.toNat ≤ 0xFFE) : s.advance.pc.toNat = s.pc.toNat + 2 := by
  rw [State.advance_pc, BitVec.toNat_add]
  simp only [BitVec.reduceToNat]; omega

theorem State.Inv.advance {s : State} (hs : s.Inv) (h : s.pc.toNat ≤ 0xFFE) : s.advance.Inv :=
  { hs with counter := by rw [State.advance_pc_toNat h]; omega }

theorem cpuStep_keeps_inv {inp : CpuInput} {s t : State} (hs : s.Inv) (h : cpuStep inp s = .next t) : t.Inv := by
  rcases cpuStep_cases h with ⟨-, rfl⟩ | ⟨hpc, -, rfl⟩ | ⟨hpc, i, hd, he⟩
  case inl => exact (hs.beginCpu inp).takeFault rfl _ ⟨nofun, nofun⟩
  case inr.inl => exact ((hs.beginCpu inp).advance hpc).takeFault rfl _ ⟨nofun, nofun⟩
  case inr.inr =>
    have hadv : (s.beginCpu inp).advance.pc.toNat = s.pc.toNat + 2 := State.advance_pc_toNat hpc
    exact exec_keeps_inv he ((hs.beginCpu inp).advance hpc) (by omega) (by omega) rfl (active_of_decode hd)

/-- The reset state meets the invariant, under any parameters. -/
theorem State.inv_resetWith (p : Params) : (State.resetWith p).Inv where
  memory := Memory.wf_nil
  index := Nat.zero_le _
  counter := show Config.programOrigin.toNat ≤ 0x10FE by decide
  stackSize := List.length_replicate
  stackPointer := Nat.zero_le _
  stackEntries := fun a ha => by rw [List.eq_of_mem_replicate ha]; decide
  baselineStack := fun _ => rfl
  faultKind := nofun
  loadWindow := fun _ => rfl

theorem State.inv_resetBlock (s : State) : s.resetBlock.Inv :=
  (State.inv_resetWith s.params).congr rfl rfl rfl rfl rfl rfl rfl rfl

/-- Settles O53. -/
theorem resetMeetsTheInvariant : Obligations.ResetMeetsTheInvariant :=
  ⟨State.inv_resetWith _, State.inv_resetWith⟩

/-- Settles O52: agent by agent. -/
theorem everyStepKeepsTheInvariant : Obligations.EveryStepKeepsTheInvariant := by
  intro s t hs h
  have hd := hs.dropEvent
  rcases step_cases h with ⟨-, inp, -, hc⟩ | ⟨-, -, rfl⟩ | ⟨-, -, rfl⟩ | ⟨addr, bytes, -, -, hload⟩ | ⟨-, rfl⟩ | ⟨-, -, rfl⟩
  case inl => exact cpuStep_keeps_inv hd hc
  case inr.inl => exact hd.congr rfl rfl rfl rfl rfl rfl rfl rfl
  case inr.inr.inl => exact hd.congr rfl rfl rfl rfl rfl rfl rfl rfl
  case inr.inr.inr.inl =>
    rcases hload with ⟨-, rfl⟩ | ⟨m, hm, rfl⟩
    · exact hd.congr rfl rfl rfl rfl rfl rfl rfl rfl
    · exact { hd with memory := memWrite_wf hs.memory hm }
  case inr.inr.inr.inr.inl => exact State.inv_resetBlock _
  case inr.inr.inr.inr.inr => exact hd.congr rfl rfl rfl rfl rfl rfl rfl rfl

end Sys2Proof.Machine
end

section
/-! The CPU cycle as a step of the schedule: fetch, unknown words, precise faults and their causes, and the wait
(30_encoding.md R94, R95, R99, R105 to R107; 60_exceptions.md R320 to R326). -/

namespace Sys2Proof.Machine

theorem runEvent_cpu {s : State} (h : s.status = .running) (inp : CpuInput) : runEvent (.cpu inp) s = cpuStep inp s :=
  whileRunning_running h _

section
variable {s : State} {inp : CpuInput} {rest : List Event}

/-- In a running state a scheduled CPU step is the CPU cycle on the state without that entry. -/
theorem step_cpu (hrun : s.status = .running) (hs : s.schedule = .cpu inp :: rest) :
    step s = cpuStep inp { s with schedule := rest } :=
  (step_scheduled hs).trans (runEvent_cpu (s := { s with schedule := rest }) hrun inp)

/-- The fetch hands the opcode on to decode and execute (R94). -/
theorem step_cpu_fetched (hrun : s.status = .running) (hs : s.schedule = .cpu inp :: rest) (hpc : s.pc.toNat ≤ 0xFFE) :
    step s = runWord (fetchWord s) { s with schedule := rest, input := inp, loadOpen := false, out := .completed } :=
  (step_cpu hrun hs).trans (cpuStep_fetched hpc)

/-- The same with no step scheduled (logs 3, 4). -/
theorem step_free_fetched (hrun : s.status = .running) (hs : s.schedule = []) (hpc : s.pc.toNat ≤ 0xFFE) :
    step s = runWord (fetchWord s)
      { s with draws := s.draws + 1, input := freeInput s.draws, loadOpen := false, out := .completed } := by
  have hcpu := runEvent_cpu (s := { s with draws := s.draws + 1 }) hrun (freeInput s.draws)
  exact (step_unscheduled hs).trans (hcpu.trans (cpuStep_fetched hpc))

theorem fetchWord_toNat (s : State) :
    (fetchWord s).toNat = (memByte s.mem s.pc.toNat).toNat * 256 + (memByte s.mem (s.pc.toNat + 1)).toNat :=
  wordOfBytes_toNat _ _

/-- What a scheduled CPU step of a running state can do. -/
theorem step_cpu_cases {t : State} (hrun : s.status = .running) (hs : s.schedule = .cpu inp :: rest)
    (h : step s = .next t) :
    (0xFFE < s.pc.toNat ∧ t = fetchFault (State.beginCpu { s with schedule := rest } inp)) ∨
    (s.pc.toNat ≤ 0xFFE ∧ decode s.params.opset (fetchWord s) = none ∧
      t = unknownFault (fetchWord s) (State.beginCpu { s with schedule := rest } inp).advance) ∨
    (s.pc.toNat ≤ 0xFFE ∧ ∃ i, decode s.params.opset (fetchWord s) = some i ∧
      exec i (State.beginCpu { s with schedule := rest } inp).advance = .next t) :=
  cpuStep_cases ((step_cpu hrun hs).symm.trans h)

end

/-- Settles O7. -/
theorem stepRunsTheDecodedInstruction : Obligations.StepRunsTheDecodedInstruction := by
  intro s inp rest i hrun hs hpc hd
  rw [← fetchWord_eq_ofNat] at hd
  exact (step_cpu_fetched hrun hs hpc).trans (runWord_some hd)

/-- Settles O8. -/
theorem unscheduledStepDrawsFreeInputs : Obligations.UnscheduledStepDrawsFreeInputs := by
  intro s i hrun hs hpc hd
  rw [← fetchWord_eq_ofNat] at hd
  exact (step_free_fetched hrun hs hpc).trans (runWord_some hd)

/-- Settles O9: the two sides of the fetch's bounds check. -/
theorem fetchIsBigEndianOrFaults : Obligations.FetchIsBigEndianOrFaults := by
  intro s inp rest hrun hs
  refine ⟨fun hpc => ?fetched, fun hpc => ?pastEnd⟩
  case fetched =>
    rw [← fetchWord_eq_ofNat]
    exact step_cpu_fetched hrun hs hpc
  case pastEnd => exact ⟨_, _, (step_cpu hrun hs).trans (cpuStep_past_end hpc), rfl, rfl, rfl⟩

/-- An unknown word's fault, on the advanced state, records the fetch address (R99, R106). -/
theorem unknownFault_advance (op : Word) (s : State) : unknownFault op s.advance =
    { s with pc := s.pc + 2#16, status := .faulted ⟨.unknownOpcode, s.pc, some op, .none⟩, out := .faulted } := by
  rw [unknownFault, State.fetchAddr_advance]; rfl

/-- An instruction's fault, on the advanced state, records the fetch address (R106). -/
theorem raiseIn_advance (i : Instr) (k : FaultKind) (d : FaultDetail) (s : State) : raiseIn i k d s.advance =
    { s with pc := s.pc + 2#16, status := .faulted ⟨k, s.pc, some (encode i), d⟩, out := .faulted } := by
  rw [raiseIn, State.fetchAddr_advance]; rfl

/-- The wait takes back the advance of `PC` (R107). -/
theorem State.wait_advance (s : State) : s.advance.wait = { s with out := .waiting } := by
  rw [State.wait, State.fetchAddr_advance]; rfl

/-- Settles O10: the word is the one fetched, and its fault keeps the advance. -/
theorem unmatchedWordFaultsOnTheAdvancedState : Obligations.UnmatchedWordFaultsOnTheAdvancedState := by
  intro s inp rest op hrun hs hpc hop hd
  obtain rfl : op = fetchWord s := BitVec.eq_of_toNat_eq (hop.trans (fetchWord_toNat s).symm)
  exact ⟨_, (step_cpu_fetched hrun hs hpc).trans (runWord_none hd), unknownFault_advance _ _⟩

/-- Settles O11: the three ways a CPU step faults; the opcode of an instruction's fault is the fetched word, because a word
that decodes is the encoding of its instruction. -/
theorem faultsArePrecise : Obligations.FaultsArePrecise := by
  intro s t inp rest r hrun hs h hf
  rw [← fetchWord_eq_ofNat]
  rcases step_cpu_cases hrun hs h with ⟨hpc, rfl⟩ | ⟨hpc, -, rfl⟩ | ⟨hpc, i, hd, he⟩
  case inl =>
    have hpast : ¬ s.pc.toNat ≤ 0xFFE := by omega
    cases hf
    rw [if_neg hpast, if_neg hpast]
    exact ⟨rfl, rfl, rfl⟩
  case inr.inl =>
    rw [unknownFault_advance] at hf ⊢
    cases hf
    rw [if_pos hpc, if_pos hpc]
    exact ⟨rfl, rfl, rfl⟩
  case inr.inr =>
    obtain ⟨k, d, rfl, -, -⟩ := exec_faulted he hrun hf
    rw [raiseIn_advance, encode_of_decode hd] at hf ⊢
    cases hf
    rw [if_pos hpc, if_pos hpc]
    exact ⟨rfl, rfl, rfl⟩

/-- Settles O12: the fetch, the unknown word, and the causes of an instruction's fault, which `exec_faulted` lists. -/
theorem eachFaultHasItsCause : Obligations.EachFaultHasItsCause := by
  intro s t inp rest r hrun hs h hf
  rcases step_cpu_cases hrun hs h with ⟨hpc, rfl⟩ | ⟨hpc, hd, rfl⟩ | ⟨hpc, i, hd, he⟩
  case inl => cases hf; exact .inl ⟨hpc, rfl, rfl⟩
  case inr.inl => cases hf; exact .inr ⟨hpc, _, fetchWord_toNat s, .inl ⟨hd, rfl⟩⟩
  case inr.inr =>
    refine .inr ⟨hpc, _, fetchWord_toNat s, .inr ?_⟩
    obtain ⟨k, d, -, rfl, hcause⟩ := exec_faulted he hrun hf
    rcases hcause with ⟨nnn, rfl, rfl, rfl⟩ | ⟨nnn, rfl, hsp, rfl, rfl⟩ | ⟨rfl, hsp, rfl, rfl⟩ |
      ⟨x, y, n, rfl, hlen, rfl, rfl⟩ | ⟨x, rfl, hlen, rfl, rfl⟩ | ⟨x, hx, hlen, rfl, rfl⟩
    · exact .inl ⟨nnn, hd, rfl⟩
    · exact .inr (.inl ⟨nnn, hd, hsp, rfl, rfl⟩)
    · exact .inr (.inr (.inl ⟨hd, hsp, rfl, rfl⟩))
    · exact .inr (.inr (.inr (.inl ⟨x, y, n, hd, hlen, rfl, rfl⟩)))
    · exact .inr (.inr (.inr (.inr (.inl ⟨x, hd, hlen, rfl, rfl⟩))))
    · exact .inr (.inr (.inr (.inr (.inr ⟨x, hx.imp (by rintro rfl; exact hd) (by rintro rfl; exact hd), hlen, rfl, rfl⟩))))

/-- Settles O14: only Fx0A without a key event waits; every other answer puts out `faulted` or `completed`. -/
theorem waitingStepChangesNothing : Obligations.WaitingStepChangesNothing := by
  intro s t inp rest hrun hs h hout
  rcases step_cpu_cases hrun hs h with ⟨-, rfl⟩ | ⟨-, -, rfl⟩ | ⟨-, i, -, he⟩
  case inl => cases hout
  case inr.inl => cases hout
  case inr.inr =>
    cases answers_of_exec he with
    | faults => cases hout
    | waits x hx hk => exact ⟨hk, State.wait_advance _⟩
    | completes c => cases c.out.symm.trans hout

end Sys2Proof.Machine
end

section
/-! Which agent's step can do what: the end of a fault, the beep, the parameters and the BASELINE stack, the host's load,
reset and stop (60_exceptions.md R330, R334, R344; 70_reset_and_hazards.md R370, R372; 10_state.md R31). -/

namespace Sys2Proof.Machine

/-! ## The next event and the schedule -/

/-- Only a CPU step can come unscheduled (log 3). -/
theorem schedule_of_nextEvent {s : State} {e : Event} (h : nextEvent s = e) (he : ∀ inp, e ≠ .cpu inp) :
    ∃ rest, s.schedule = e :: rest := by
  unfold nextEvent at h
  split at h
  · exact absurd h.symm (he _)
  · next rest hs => exact ⟨rest, h ▸ hs⟩

theorem head?_eq_some_iff_nextEvent {s : State} {e : Event} (he : ∀ inp, e ≠ .cpu inp) :
    s.schedule.head? = some e ↔ nextEvent s = e := by
  constructor
  · intro h
    obtain ⟨rest, hs⟩ := List.head?_eq_some_iff.1 h
    rw [nextEvent, hs]
  · intro h
    obtain ⟨rest, hs⟩ := schedule_of_nextEvent h he
    rw [hs, List.head?_cons]

/-! ## Faulted states -/

/-- A CPU step or a tick is not enabled in FAULTED (60_exceptions.md R330, log 2). -/
theorem runEvent_faulted {s : State} {r : FaultRecord} {e : Event} (h : s.status = .faulted r)
    (he : (∃ inp, e = .cpu inp) ∨ e = .dtTick ∨ e = .stTick) : runEvent e s = .fault (.halted r) := by
  rcases he with ⟨inp, rfl⟩ | rfl | rfl <;> rw [runEvent, whileRunning_faulted h]

/-- Settles O13: the CPU, the ticks and the stop ask for a running state, and a host load keeps `status`. -/
theorem onlyResetLeavesAFault : Obligations.OnlyResetLeavesAFault := by
  intro s r hf
  refine ⟨fun e rest hs he => ?scheduled, fun hs => ?unscheduled, fun t h hrun => ?reset⟩
  case scheduled => exact (step_scheduled hs).trans (runEvent_faulted hf he)
  case unscheduled => exact (step_unscheduled hs).trans (runEvent_faulted hf (.inl ⟨_, rfl⟩))
  case reset =>
    have hnot : s.status ≠ .running := by rw [hf]; exact nofun
    rcases step_cases h with ⟨hr, -⟩ | ⟨hr, -⟩ | ⟨hr, -⟩ | ⟨addr, bytes, -, -, hload⟩ | ⟨he, -⟩ | ⟨hr, -⟩
    case inr.inr.inr.inl =>
      rcases hload with ⟨-, rfl⟩ | ⟨m, -, rfl⟩ <;> exact absurd ((dropEvent_status s).symm.trans hrun) hnot
    case inr.inr.inr.inr.inl => exact schedule_of_nextEvent he nofun
    all_goals exact absurd hr hnot

/-! ## The beep -/

theorem tickBeeps_iff (t : Byte) : tickBeeps t = true ↔ t.toNat = 1 := by
  rw [tickBeeps, beq_iff_eq, ← BitVec.toNat_inj]; rfl

/-- A CPU step puts out its outcome, never a tick (R105). -/
theorem cpuStep_out {inp : CpuInput} {s t : State} (h : cpuStep inp s = .next t) :
    t.out = .completed ∨ t.out = .waiting ∨ t.out = .faulted := by
  rcases cpuStep_cases h with ⟨-, rfl⟩ | ⟨-, -, rfl⟩ | ⟨-, i, -, he⟩
  case inl => exact .inr (.inr rfl)
  case inr.inl => exact .inr (.inr rfl)
  case inr.inr =>
    cases answers_of_exec he with
    | faults => exact .inr (.inr rfl)
    | waits => exact .inr (.inl rfl)
    | completes c => exact .inl c.out

/-- Settles O16: `out` says which agent moved, and only the sound timer's tick can say `ticked true`. -/
theorem beepIsExactlyTheSoundTickFromOne : Obligations.BeepIsExactlyTheSoundTickFromOne := by
  intro s t h
  rw [head?_eq_some_iff_nextEvent (e := .stTick) nofun]
  rcases step_cases h with ⟨-, inp, he, hc⟩ | ⟨-, he, rfl⟩ | ⟨hr, he, rfl⟩ | ⟨addr, bytes, he, -, hload⟩ | ⟨he, rfl⟩ |
    ⟨-, he, rfl⟩
  case inl =>
    have hout : t.out ≠ .ticked true := by rcases cpuStep_out hc with ho | ho | ho <;> rw [ho] <;> exact nofun
    simp [he, hout]
  case inr.inr.inl =>
    rw [soundTick_out, dropEvent_st, StepOutput.ticked.injEq, tickBeeps_iff]
    simp [hr, he]
  case inr.inr.inr.inl => rcases hload with ⟨-, rfl⟩ | ⟨m, -, rfl⟩ <;> simp [he]
  all_goals simp [he]

/-! ## Parameters and the BASELINE stack -/

theorem cpuStep_params {inp : CpuInput} {s t : State} (h : cpuStep inp s = .next t) : t.params = s.params := by
  rcases cpuStep_cases h with ⟨-, rfl⟩ | ⟨-, -, rfl⟩ | ⟨-, i, -, he⟩
  case inl => rfl
  case inr.inl => rfl
  case inr.inr => exact (exec_params he).trans rfl

/-- Under BASELINE the CPU decodes no call and no return (30_encoding.md R98). -/
theorem cpuStep_baseline_stack {inp : CpuInput} {s t : State} (h : cpuStep inp s = .next t)
    (hb : s.params.opset = .baseline) : t.stack = s.stack ∧ t.sp = s.sp := by
  rcases cpuStep_cases h with ⟨-, rfl⟩ | ⟨-, -, rfl⟩ | ⟨-, i, hd, he⟩
  case inl => exact ⟨rfl, rfl⟩
  case inr.inl => exact ⟨rfl, rfl⟩
  case inr.inr =>
    rw [hb] at hd
    have hkeep := exec_keeps_baselineStack he (active_of_decode hd)
    exact hkeep

/-- Settles O58: agent by agent. -/
theorem parametersStayAndBaselineLeavesTheStack : Obligations.ParametersStayAndBaselineLeavesTheStack := by
  intro s t h
  rw [ne_eq, head?_eq_some_iff_nextEvent (e := .hostReset) nofun]
  have hdrop : (dropEvent s).stack = s.stack ∧ (dropEvent s).sp = s.sp := ⟨dropEvent_stack s, dropEvent_sp s⟩
  rcases step_cases h with ⟨-, inp, -, hc⟩ | ⟨-, -, rfl⟩ | ⟨-, -, rfl⟩ | ⟨addr, bytes, -, -, hload⟩ | ⟨he, rfl⟩ | ⟨-, -, rfl⟩
  case inl =>
    refine ⟨(cpuStep_params hc).trans (dropEvent_params s), fun hb _ => ?_⟩
    obtain ⟨hstack, hsp⟩ := cpuStep_baseline_stack hc (by rwa [dropEvent_params])
    exact ⟨hstack.trans hdrop.1, hsp.trans hdrop.2⟩
  case inr.inr.inr.inl =>
    rcases hload with ⟨-, rfl⟩ | ⟨m, -, rfl⟩ <;> exact ⟨dropEvent_params s, fun _ _ => hdrop⟩
  case inr.inr.inr.inr.inl => exact ⟨dropEvent_params s, fun _ hne => absurd he hne⟩
  all_goals exact ⟨dropEvent_params s, fun _ _ => hdrop⟩

/-! ## The host -/

section
variable {s : State} {addr : Nat} {bytes : List Byte}

theorem hostLoadStep_fits (ho : s.loadOpen = true) (hfit : addr + bytes.length ≤ Config.memSize) :
    hostLoadStep addr bytes s = .next { s with mem := memPutRun s.mem addr bytes, out := .loaded } := by
  rw [hostLoadStep, if_pos ho, memWrite_eq_some.2 ⟨hfit, rfl⟩]

theorem hostLoadStep_rejected (ho : s.loadOpen = true) (hlong : Config.memSize < addr + bytes.length) :
    hostLoadStep addr bytes s = .next { s with out := .loadRejected addr bytes.length } := by
  rw [hostLoadStep, if_pos ho, memWrite_eq_none.2 hlong]

theorem hostLoadStep_closed (hc : s.loadOpen = false) :
    hostLoadStep addr bytes s = .refused (.hostLoadDuringRun addr bytes.length) :=
  if_neg (by rw [hc]; exact nofun)

end

/-- Settles O17: the load is one `MemWrite`, whose run of stores has the contents and the frame. -/
theorem hostLoadIsAllOrNothingInItsWindow : Obligations.HostLoadIsAllOrNothingInItsWindow := by
  intro s addr bytes rest hm hs
  have hstep := step_scheduled hs
  refine ⟨fun ho hfit => ?fits, fun ho hlong => hstep.trans (hostLoadStep_rejected ho hlong),
    fun hc => hstep.trans (hostLoadStep_closed hc)⟩
  case fits =>
    exact ⟨_, hstep.trans (hostLoadStep_fits ho hfit), rfl, memByte_memPutRun_inside bytes hm hfit,
      fun _ ha => memByte_memPutRun_outside bytes s.mem addr ha⟩

/-- A cleared register file reads 0 everywhere. -/
theorem State.getV_of_cleared {s : State} (h : s.v = Vector.replicate 16 0#8) (r : Reg) : s.getV r = 0#8 := by
  simp only [State.getV, h, Vector.getElem_replicate]

/-- Settles O18. -/
theorem resetStateHoldsTheSpecValues : Obligations.ResetStateHoldsTheSpecValues :=
  ⟨State.getV_of_cleared rfl, rfl, rfl, fun _ => rfl, pixel_displayClear, rfl, rfl, rfl, rfl,
    fun _ ha => List.eq_of_mem_replicate ha, rfl⟩

/-- Settles O19: the reset is enabled in every state, and is `resetBlock`. -/
theorem hostResetRestoresTheResetState : Obligations.HostResetRestoresTheResetState := by
  intro s rest hs
  exact ⟨_, step_scheduled hs, rfl, rfl, rfl, rfl, State.getV_of_cleared rfl, rfl, rfl, fun _ => rfl, pixel_displayClear,
    rfl, rfl, rfl, rfl, rfl⟩

theorem runEvent_hostStop {s : State} (h : s.status = .running) : runEvent .hostStop s = .next { s with out := .stopped } :=
  whileRunning_running h fun s => .next { s with out := .stopped }

/-- Settles O20. -/
theorem hostStopChangesNoState : Obligations.HostStopChangesNoState := by
  intro s rest hrun hs
  exact ⟨_, (step_scheduled hs).trans (runEvent_hostStop hrun), rfl, rfl, rfl, rfl, rfl, rfl, rfl, rfl, rfl, rfl, rfl, rfl⟩

end Sys2Proof.Machine
end

section
/-! The idle loop and the placed word: what the next CPU step fetches (70_reset_and_hazards.md R381, log 19). -/

namespace Sys2Proof.Machine

/-! ## The idle loop -/

theorem idle_iff (s : State) :
    idle s = true ↔ s.status = .running ∧ s.pc.toNat ≤ 0xFFE ∧ fetchWord s = 0x1000#16 + s.pc := by
  rw [idle, Bool.and_eq_true, Bool.and_eq_true, beq_iff_eq, beq_iff_eq, canFetch_iff, and_assoc]

/-- An address that can be fetched from, as the target of a jump (30_encoding.md R97). -/
theorem encode_jp_pc {pc : Word} (h : pc.toNat ≤ 0xFFE) : encode (.jp (pc.setWidth 12)) = 0x1000#16 + pc := by
  apply BitVec.eq_of_toNat_eq
  rw [encode, encAnnn_toNat, BitVec.toNat_setWidth, BitVec.toNat_add]
  simp only [BitVec.reduceToNat]; omega

/-- A 12-bit `PC` survives the narrowing to a jump target. -/
theorem setWidth_setWidth_pc {pc : Word} (h : pc.toNat ≤ 0xFFE) : ((pc.setWidth 12).setWidth 16 : Word) = pc := by
  apply BitVec.eq_of_toNat_eq
  rw [BitVec.toNat_setWidth, BitVec.toNat_setWidth]
  omega

/-- Settles O59: the word of the idle state is the jump to its own address, active in both opcode sets. -/
theorem idleStateStaysIdle : Obligations.IdleStateStaysIdle := by
  intro s inp rest hidle hs
  obtain ⟨hrun, hpc, hword⟩ := (idle_iff s).1 hidle
  have hdecode : decode s.params.opset (fetchWord s) = some (.jp (s.pc.setWidth 12)) := by
    rw [hword, ← encode_jp_pc hpc]
    exact decode_encode_jp _ _
  have hstep : step s = exec (.jp (s.pc.setWidth 12)) _ := (step_cpu_fetched hrun hs hpc).trans (runWord_some hdecode)
  rw [exec_jp, setWidth_setWidth_pc hpc] at hstep
  exact ⟨_, hstep, ⟨rfl, rfl, rfl, rfl, rfl, rfl, rfl, rfl, rfl, rfl⟩, (idle_iff _).2 ⟨hrun, hpc, hword⟩⟩

/-! ## The placed word -/

/-- Where `withFetchWord` places the word: `PC`, or the program origin when nothing can be fetched from `PC` (log 19). -/
def placePc (s : State) : Word := if canFetch s then s.pc else Config.programOrigin

theorem placePc_toNat (s : State) : (placePc s).toNat = if s.pc.toNat ≤ 0xFFE then s.pc.toNat else 0x200 := by
  simp only [placePc, canFetch_iff]
  split <;> rfl

theorem placePc_le (s : State) : (placePc s).toNat ≤ 0xFFE := by
  rw [placePc_toNat]
  split <;> omega

/-- `withCpuNext` may put an event in front of the schedule, and does nothing else. -/
theorem State.withCpuNext_eq (s : State) : s.withCpuNext = { s with schedule := s.withCpuNext.schedule } := by
  unfold State.withCpuNext
  split <;> rfl

/-- The state of `withFetchWord` before the step: the word is at `placePc` (log 19). -/
theorem State.withFetchWord_eq (s : State) (nbits w : Nat) : s.withFetchWord nbits w =
    { s with
      pc := placePc s, mem := memPutRun s.mem (placePc s).toNat (bytesOfTableWord nbits w), status := .running,
      schedule := (s.setPc (placePc s)).withCpuNext.schedule } := by
  have hpc : (if canFetch s then s else s.setPc Config.programOrigin) = s.setPc (placePc s) := by
    unfold placePc
    split <;> rfl
  simp only [State.withFetchWord, hpc]
  rw [State.withCpuNext_eq]
  rfl

/-- The next event depends on the schedule and the draws alone. -/
theorem nextEvent_congr {s t : State} (hs : t.schedule = s.schedule) (hd : t.draws = s.draws) :
    nextEvent t = nextEvent s := by
  simp only [nextEvent, hs, hd]

/-- The step after `withFetchWord` is the CPU's. -/
theorem nextEvent_withFetchWord (s : State) (nbits w : Nat) : ∃ inp, nextEvent (s.withFetchWord nbits w) = .cpu inp := by
  obtain ⟨inp, hinp, -⟩ := nextEvent_withCpuNext (s.setPc (placePc s))
  refine ⟨inp, (nextEvent_congr ?_ ?_).trans hinp⟩
  · rw [State.withFetchWord_eq]
  · rw [State.withFetchWord_eq, State.withCpuNext_eq]; rfl

/-- The two bytes of a 16-bit table word, high byte first. -/
theorem bytesOfTableWord_sixteen (w : Nat) :
    bytesOfTableWord 16 w = [(BitVec.ofNat 16 w).extractLsb' 8 8, (BitVec.ofNat 16 w).extractLsb' 0 8] := by
  have hw : BitVec.ofNat 16 (w % 2 ^ 16) = BitVec.ofNat 16 w := BitVec.eq_of_toNat_eq (by simp)
  rw [bytesOfTableWord, hw, bytesOfWord]

section
variable {s : State} (hm : Memory.wf s.mem = true) (w : Nat)
include hm

theorem memByte_withFetchWord_high :
    memByte (s.withFetchWord 16 w).mem (placePc s).toNat = (BitVec.ofNat 16 w).extractLsb' 8 8 := by
  have hle := placePc_le s
  rw [State.withFetchWord_eq, bytesOfTableWord_sixteen]
  exact memByte_memPutRun_inside _ hm (by simp only [List.length_cons, List.length_nil, Config.memSize]; omega) 0 (by simp)

theorem memByte_withFetchWord_low :
    memByte (s.withFetchWord 16 w).mem ((placePc s).toNat + 1) = (BitVec.ofNat 16 w).extractLsb' 0 8 := by
  have hle := placePc_le s
  rw [State.withFetchWord_eq, bytesOfTableWord_sixteen]
  exact memByte_memPutRun_inside _ hm (by simp only [List.length_cons, List.length_nil, Config.memSize]; omega) 1 (by simp)

/-- The word placed is the word fetched (20_memory.md R66). -/
theorem fetchWord_withFetchWord : fetchWord (s.withFetchWord 16 w) = BitVec.ofNat 16 w := by
  have hpc : (s.withFetchWord 16 w).pc = placePc s := by rw [State.withFetchWord_eq]
  rw [fetchWord, hpc, memByte_withFetchWord_high hm, memByte_withFetchWord_low hm, wordOfBytes_bytesOfWord]

end

theorem memByte_withFetchWord_ne (s : State) (w : Nat) {a : Nat} (h0 : a ≠ (placePc s).toNat)
    (h1 : a ≠ (placePc s).toNat + 1) : memByte (s.withFetchWord 16 w).mem a = memByte s.mem a := by
  rw [State.withFetchWord_eq, bytesOfTableWord_sixteen]
  exact memByte_memPutRun_outside _ _ _ (by simp only [List.length_cons, List.length_nil]; omega)

/-- The step after `withFetchWord` runs the instruction of the word, on the advanced state. -/
theorem step_withFetchWord {s : State} {w : Nat} {i : Instr} (hm : Memory.wf s.mem = true)
    (hd : decode s.params.opset (BitVec.ofNat 16 w) = some i) :
    ∃ inp, step (s.withFetchWord 16 w) = exec i ((dropEvent (s.withFetchWord 16 w)).beginCpu inp).advance := by
  obtain ⟨inp, hinp⟩ := nextEvent_withFetchWord s 16 w
  refine ⟨inp, ?_⟩
  have hrun : (dropEvent (s.withFetchWord 16 w)).status = .running := by rw [dropEvent_status, State.withFetchWord_eq]
  have hpc : (dropEvent (s.withFetchWord 16 w)).pc.toNat ≤ 0xFFE := by
    rw [dropEvent_pc, State.withFetchWord_eq]; exact placePc_le s
  have hword : fetchWord (dropEvent (s.withFetchWord 16 w)) = BitVec.ofNat 16 w := by
    rw [← fetchWord_withFetchWord hm w, fetchWord, fetchWord, dropEvent_mem, dropEvent_pc]
  have hparams : (dropEvent (s.withFetchWord 16 w)).params = s.params := by rw [dropEvent_params, State.withFetchWord_eq]
  rw [step, hinp, runEvent_cpu hrun, cpuStep_fetched hpc, hword]
  exact runWord_some (by rw [State.beginCpu_params, hparams]; exact hd)

/-- Settles O60: the step fetches the two bytes placed, and every other part of the state is the old one. -/
theorem placedWordIsTheNextInstruction : Obligations.PlacedWordIsTheNextInstruction := by
  intro s w base i hm hbase hd
  rw [← placePc_toNat] at hbase
  subst hbase
  obtain ⟨inp, hstep⟩ := step_withFetchWord hm hd
  refine ⟨_, hstep, ?v, ?i, ?disp, ?dt, ?st, ?sp, ?stack, ?params, ?status, ?pc, ?high, ?low, fun a h0 h1 => ?other⟩
  case pc =>
    rw [State.advance_pc_toNat] <;> rw [State.beginCpu_pc, dropEvent_pc, State.withFetchWord_eq]
    exact placePc_le s
  case high =>
    rw [State.advance_mem, State.beginCpu_mem, dropEvent_mem, memByte_withFetchWord_high hm]
    rw [BitVec.extractLsb'_toNat, BitVec.toNat_ofNat, Nat.shiftRight_eq_div_pow]; omega
  case low =>
    rw [State.advance_mem, State.beginCpu_mem, dropEvent_mem, memByte_withFetchWord_low hm]
    simp
  case other =>
    rw [State.advance_mem, State.beginCpu_mem, dropEvent_mem, memByte_withFetchWord_ne s w h0 h1]
  all_goals simp [State.withFetchWord_eq]

end Sys2Proof.Machine
end
section
/-! Who writes VF (10_state.md R22), and which instruction reads which input (60_exceptions.md R340). -/

namespace Sys2Proof.Machine

/-! ## VF -/

/-- The instructions that may write VF: its flag writers, and those that name it as their destination. -/
theorem writesV_vf {i : Instr} {p : Params} (h : i.writesV p vf) :
    (∃ x y, i = .addReg x y ∨ i = .subReg x y ∨ i = .subn x y ∨ i = .shr x y ∨ i = .shl x y ∨ ∃ n, i = .drw x y n) ∨
    (p.qLogicClearsVf = true ∧ ∃ x y, i = .orReg x y ∨ i = .andReg x y ∨ i = .xorReg x y) ∨
    (∃ kk y, i = .ldImm vf kk ∨ i = .addImm vf kk ∨ i = .rnd vf kk ∨ i = .ldReg vf y ∨
      i = .orReg vf y ∨ i = .andReg vf y ∨ i = .xorReg vf y ∨ i = .ldVxDt vf ∨ i = .ldVxK vf ∨ i = .loadRegs vf) := by
  cases i
  case addReg | subReg | subn | shr | shl | drw => simp
  case orReg | andReg | xorReg => obtain rfl | ⟨hq, -⟩ := h <;> simp [*]
  case ldImm | addImm | rnd | ldReg | ldVxDt | ldVxK => obtain rfl : vf = _ := h; simp
  case loadRegs x =>
    obtain rfl : x = vf := BitVec.eq_of_toNat_eq (le_antisymm (Nat.le_of_lt_succ x.isLt) h)
    simp
  all_goals exact h.elim

/-- Settles O56: a register that changes is one the instruction writes. -/
theorem flagRegisterHasItsOnlyWriters : Obligations.FlagRegisterHasItsOnlyWriters :=
  fun _ _ _ h hne => writesV_vf (not_imp_comm.1 (exec_getV h) hne)

/-! ## Inputs -/

/-- The state with other inputs for the step. -/
def State.withInput (s : State) (inp : CpuInput) : State := { s with input := inp }

/-- An outcome with other inputs in its next state. -/
def outcomeWithInput (inp : CpuInput) : Host.Outcome State Fault Refusal → Host.Outcome State Fault Refusal
  | .next t => .next (t.withInput inp)
  | .fault r => .fault r
  | .refused r => .refused r

section
variable (s : State) (inp : CpuInput) (x : Reg)
@[simp] theorem State.withInput_mem : (s.withInput inp).mem = s.mem := rfl
@[simp] theorem State.withInput_params : (s.withInput inp).params = s.params := rfl
@[simp] theorem State.getV_withInput : (s.withInput inp).getV x = s.getV x := rfl
@[simp] theorem State.regsUpTo_withInput : (s.withInput inp).regsUpTo x = s.regsUpTo x := rfl
@[simp] theorem dataAddr_withInput : dataAddr (s.withInput inp) = dataAddr s := rfl

theorem State.setLogicResult_withInput (b : Byte) :
    (s.withInput inp).setLogicResult x b = (s.setLogicResult x b).withInput inp := by
  unfold State.setLogicResult
  rw [State.withInput_params]
  split <;> rfl

theorem State.skipIf_withInput (c : Bool) : (s.withInput inp).skipIf c = (s.skipIf c).withInput inp := by
  cases c <;> rfl

theorem State.advanceI_withInput : (s.withInput inp).advanceI x = (s.advanceI x).withInput inp := by
  unfold State.advanceI
  rw [State.withInput_params]
  split <;> rfl
end

theorem keyHeld_withInput {s : State} {inp : CpuInput} (x : Reg) (h : inp.keysDown = s.input.keysDown) :
    keyHeld x (s.withInput inp) = keyHeld x s :=
  congrArg (fun k : BitVec 16 => k.getLsbD (lowNibble x s).toNat) h

/-- An instruction commutes with the replacing of the inputs it does not read: Cxkk reads the random byte, Ex9E and ExA1 the
held keys, Fx0A the key event, and no other instruction reads any (60_exceptions.md R340). -/
theorem exec_withInput {i : Instr} {s : State} {inp : CpuInput}
    (hrand : (∃ x kk, i = .rnd x kk) → inp.rand = s.input.rand)
    (hkeys : (∃ x, i = .skp x ∨ i = .sknp x) → inp.keysDown = s.input.keysDown)
    (hevent : (∃ x, i = .ldVxK x) → inp.keyEvent = s.input.keyEvent) :
    exec i (s.withInput inp) = outcomeWithInput inp (exec i s) := by
  have hskip (c : Bool) : Host.Outcome.next ((s.withInput inp).skipIf c) = outcomeWithInput inp (.next (s.skipIf c)) :=
    congrArg Host.Outcome.next (s.skipIf_withInput inp c)
  have hlogic (x : Reg) (b : Byte) : Host.Outcome.next ((s.withInput inp).setLogicResult x b) =
      outcomeWithInput inp (.next (s.setLogicResult x b)) := congrArg Host.Outcome.next (s.setLogicResult_withInput inp x b)
  cases i
  case rnd x kk =>
    have hsame : (s.withInput inp).input.rand = s.input.rand := hrand ⟨x, kk, rfl⟩
    simp only [exec, execRnd, hsame]; rfl
  case skp x =>
    simp only [exec, execSkp, keyHeld_withInput x (hkeys ⟨x, .inl rfl⟩), hskip]
  case sknp x =>
    simp only [exec, execSknp, keyHeld_withInput x (hkeys ⟨x, .inr rfl⟩), hskip]
  case ldVxK x =>
    have hsame : (s.withInput inp).input.keyEvent = s.input.keyEvent := hevent ⟨x, rfl⟩
    simp only [exec, execLdVxK, hsame]
    cases s.input.keyEvent <;> rfl
  case seImm | sneImm | seReg | sneReg => exact hskip _
  case orReg | andReg | xorReg => exact hlogic _ _
  case call nnn =>
    rcases execCall_cases nnn s with ⟨hc, he⟩ | ⟨hc, he⟩ <;> simp only [exec, he]
    · exact if_pos hc
    · exact if_neg hc
  case ret =>
    rcases execRet_cases s with ⟨hc, he⟩ | ⟨hc, he⟩ <;> simp only [exec, he]
    · exact if_pos hc
    · exact if_neg hc
  case drw x y n => simp only [exec, execDrw, State.withInput_mem, dataAddr_withInput]; split <;> rfl
  case ldB x =>
    simp only [exec, execLdB, State.withInput_mem, dataAddr_withInput, State.getV_withInput]; split <;> rfl
  case storeRegs x =>
    simp only [exec, execStoreRegs, State.withInput_mem, dataAddr_withInput, State.regsUpTo_withInput]
    split
    · rfl
    · next m _ => exact congrArg Host.Outcome.next (State.advanceI_withInput { s with mem := m } inp x)
  case loadRegs x =>
    simp only [exec, execLoadRegs, State.withInput_mem, dataAddr_withInput]
    split
    · rfl
    · next bs _ =>
      exact congrArg Host.Outcome.next (State.advanceI_withInput { s with v := regsPutRun s.v 0 bs } inp x)
  all_goals rfl

/-- Settles O57. -/
theorem inputsAreReadOnlyByTheirInstructions : Obligations.InputsAreReadOnlyByTheirInstructions := by
  intro i s t inp h hrand hkeys hevent
  exact (exec_withInput hrand hkeys hevent).trans (congrArg (outcomeWithInput inp) h)

end Sys2Proof.Machine
end

section
/-! Skips, the indexed jump, call and return, and SYS (41_control_flow.md R132 to R134, R137 to R140; 30_encoding.md R100). -/

namespace Sys2Proof.Machine

/-! ## Skips -/

/-- The skip on two equal registers, its condition a comparison of numbers (R137). -/
theorem exec_seReg (x y : Reg) (s : State) : exec (.seReg x y) s =
    .next { s with pc := if (s.getV x).toNat = (s.getV y).toNat then s.pc + 2#16 else s.pc } :=
  have hcond : (s.getV x == s.getV y) = true ↔ (s.getV x).toNat = (s.getV y).toNat := by rw [beq_iff_eq, BitVec.toNat_inj]
  congrArg Host.Outcome.next (s.skipIf_eq _ _ hcond)

/-- The skip on two different registers, its condition a comparison of numbers (R138). -/
theorem exec_sneReg (x y : Reg) (s : State) : exec (.sneReg x y) s =
    .next { s with pc := if (s.getV x).toNat ≠ (s.getV y).toNat then s.pc + 2#16 else s.pc } :=
  have hcond : (s.getV x != s.getV y) = true ↔ (s.getV x).toNat ≠ (s.getV y).toNat := by
    rw [bne_iff_ne, ne_eq, ne_eq, BitVec.toNat_inj]
  congrArg Host.Outcome.next (s.skipIf_eq _ _ hcond)

/-- Settles O26. -/
theorem registerSkipsCompareTwoRegisters : Obligations.RegisterSkipsCompareTwoRegisters :=
  fun s x y => ⟨⟨_, exec_seReg x y s, rfl⟩, ⟨_, exec_sneReg x y s, rfl⟩⟩

theorem lowNibble_toNat (x : Reg) (s : State) : (lowNibble x s).toNat = (s.getV x).toNat % 16 := by
  simp [lowNibble, BitVec.extractLsb'_toNat]

/-- The key that a skip tests, as a bit of the held keys (R139). -/
theorem keyHeld_eq (x : Reg) (s : State) : keyHeld x s = s.input.keysDown.getLsbD ((s.getV x).toNat % 16) := by
  rw [keyHeld, lowNibble_toNat]

/-- The skip on a held key (R139). -/
theorem exec_skp (x : Reg) (s : State) : exec (.skp x) s =
    .next { s with pc := if keyHeld x s = true then s.pc + 2#16 else s.pc } :=
  congrArg Host.Outcome.next (s.skipIf_eq _ _ Iff.rfl)

/-- The skip on a key that is not held (R140). -/
theorem exec_sknp (x : Reg) (s : State) : exec (.sknp x) s =
    .next { s with pc := if keyHeld x s = true then s.pc else s.pc + 2#16 } := by
  have hcond : (!keyHeld x s) = true ↔ ¬ keyHeld x s = true := by rw [Bool.not_eq_true', Bool.not_eq_true]
  rw [← ite_not]
  exact congrArg Host.Outcome.next (s.skipIf_eq _ _ hcond)

/-- Settles O27. -/
theorem keySkipsTestTheHeldKey : Obligations.KeySkipsTestTheHeldKey := by
  intro s x
  rw [← keyHeld_eq]
  exact ⟨⟨_, exec_skp x s, rfl⟩, ⟨_, exec_sknp x s, rfl⟩⟩

/-! ## The indexed jump -/

theorem exec_jpV0 (nnn : Addr) (s : State) : exec (.jpV0 nnn) s = .next (s.setPc (indexedTarget nnn s)) := rfl

/-- The sum of a 12-bit address and a byte is not reduced (R134, D20). -/
theorem indexedTarget_toNat (nnn : Addr) (s : State) :
    (indexedTarget nnn s).toNat = nnn.toNat + (s.getV (jumpReg nnn s)).toNat := by
  have hnnn := nnn.isLt
  have hreg := (s.getV (jumpReg nnn s)).isLt
  rw [indexedTarget, BitVec.toNat_add, BitVec.toNat_setWidth, BitVec.toNat_setWidth]
  omega

/-- The register that the top nibble of the address names (R134). -/
theorem jumpReg_of_qJumpVx {nnn : Addr} {s : State} (h : s.params.qJumpVx = true) :
    jumpReg nnn s = BitVec.ofNat 4 (nnn.toNat / 256) := by
  rw [jumpReg, if_pos h, BitVec.extractLsb', Nat.shiftRight_eq_div_pow]

theorem jumpReg_of_not_qJumpVx {nnn : Addr} {s : State} (h : s.params.qJumpVx = false) : jumpReg nnn s = 0x0#4 :=
  if_neg (by rw [h]; exact nofun)

/-- Settles O28. -/
theorem indexedJumpAddsARegisterUnmasked : Obligations.IndexedJumpAddsARegisterUnmasked := by
  intro s nnn
  refine ⟨_, exec_jpV0 nnn s, rfl, fun hq => ?_, fun hq => ?_⟩ <;> rw [State.setPc_pc, indexedTarget_toNat]
  · rw [jumpReg_of_not_qJumpVx hq]
  · rw [jumpReg_of_qJumpVx hq]

/-! ## Call and return -/

theorem exec_call_full {nnn : Addr} {s : State} (h : s.sp = s.params.stackDepth) :
    exec (.call nnn) s = .next (raiseIn (.call nnn) .stackOverflow (.stackPointer s.sp) s) := if_pos h

theorem exec_call {nnn : Addr} {s : State} (h : s.sp ≠ s.params.stackDepth) :
    exec (.call nnn) s = .next ((s.push s.pc).setPc (nnn.setWidth 16)) := if_neg h

theorem exec_ret_empty {s : State} (h : s.sp = 0) :
    exec .ret s = .next (raiseIn .ret .stackUnderflow (.stackPointer 0) s) :=
  (if_pos h).trans (by rw [h])

theorem exec_ret {s : State} (h : s.sp ≠ 0) : exec .ret s = .next (s.pop.setPc (stackEntry s.stack (s.sp - 1))) :=
  if_neg h

/-- A push inside the stack is what its entry reads (10_state.md R31). -/
theorem stackEntry_set_self {stack : List Word} {k : Nat} (h : k < stack.length) (a : Word) :
    stackEntry (stack.set k a) k = a := by
  simp [stackEntry, h]

theorem stackEntry_set_ne (stack : List Word) {j k : Nat} (h : j ≠ k) (a : Word) :
    stackEntry (stack.set k a) j = stackEntry stack j := by
  simp [stackEntry, List.getElem?_set_ne h.symm]

/-- Settles O29: the two sides of the stack's check. -/
theorem callPushesTheReturnAddressOrOverflows : Obligations.CallPushesTheReturnAddressOrOverflows := by
  intro s nnn hlen
  refine ⟨fun hsp => ?pushes, fun hsp => ⟨_, exec_call_full hsp, rfl⟩⟩
  case pushes =>
    exact ⟨_, exec_call hsp.ne, rfl, BitVec.toNat_setWidth_of_le (by decide), List.length_set,
      stackEntry_set_self (hlen ▸ hsp) s.pc, fun _ hk => stackEntry_set_ne s.stack hk s.pc⟩

/-- Settles O30: the two sides of the stack's check. -/
theorem returnPopsOrUnderflows : Obligations.ReturnPopsOrUnderflows := by
  intro s
  exact ⟨fun hsp => ⟨_, exec_ret hsp.ne', rfl⟩, fun hsp => ⟨_, exec_ret_empty hsp, rfl⟩⟩

/-- Settles O31: the entry that the return reads is the one that the call wrote. -/
theorem returnUndoesCall : Obligations.ReturnUndoesCall := by
  intro s t nnn hlen hsp h
  have ht : t = (s.push s.pc).setPc (nnn.setWidth 16) := by cases (exec_call hsp.ne).symm.trans h; rfl
  have hentry : stackEntry t.stack (t.sp - 1) = s.pc := by rw [ht]; exact stackEntry_set_self (hlen ▸ hsp) s.pc
  have hret := exec_ret (s := t) (by rw [ht]; exact Nat.succ_ne_zero s.sp)
  rw [hentry] at hret
  subst ht
  exact ⟨_, hret, rfl, rfl, rfl⟩

/-! ## SYS -/

theorem exec_sys (nnn : Addr) (s : State) : exec (.sys nnn) s = .next (raiseIn (.sys nnn) .unknownOpcode .none s) := rfl

theorem encode_sys (nnn : Addr) : encode (.sys nnn) = BitVec.ofNat 16 nnn.toNat := by
  apply BitVec.eq_of_toNat_eq
  rw [encode_sys_toNat, BitVec.toNat_ofNat]
  have := nnn.isLt; omega

/-- Settles O32: the record's opcode is the encoding of SYS, which is its address. -/
theorem sysRaisesUnknownOpcode : Obligations.SysRaisesUnknownOpcode := by
  intro s nnn
  refine ⟨_, exec_sys nnn s, ?_⟩
  rw [← encode_sys]; rfl

end Sys2Proof.Machine
end

section
/-! Register copies, logic, subtraction, shifts, the random byte and the key wait (42_register_alu.md R172 to R181;
45_timers_keypad.md R293). -/

namespace Sys2Proof.Machine

/-! ## One write of `V[x]` -/

theorem exec_ldReg (x y : Reg) (s : State) : exec (.ldReg x y) s = .next (s.setV x (s.getV y)) := rfl

/-- Settles O36. -/
theorem registerCopyMovesTheByte : Obligations.RegisterCopyMovesTheByte :=
  fun s x y => ⟨_, exec_ldReg x y s, rfl, s.getV_setV_self x _, fun _ hr => s.getV_setV_ne _ hr⟩

theorem exec_rnd (x : Reg) (kk : Byte) (s : State) : exec (.rnd x kk) s = .next (s.setV x (s.input.rand &&& kk)) := rfl

/-- Settles O40: a masked byte is at most the mask. -/
theorem randomIsMaskedByTheByte : Obligations.RandomIsMaskedByTheByte := by
  intro s x kk
  have hx := s.getV_setV_self x (s.input.rand &&& kk)
  refine ⟨_, exec_rnd x kk s, rfl, hx, ?_, fun _ hr => s.getV_setV_ne _ hr⟩
  rw [hx, BitVec.toNat_and]
  exact Nat.and_le_right

/-! ## Logic -/

theorem State.getV_setLogicResult_vf {s : State} (x : Reg) (b : Byte) (hq : s.params.qLogicClearsVf = true) :
    (s.setLogicResult x b).getV vf = 0#8 := by
  rw [State.getV_setLogicResult, if_pos ⟨hq, rfl⟩]

theorem State.getV_setLogicResult_self {s : State} {x : Reg} (b : Byte) (h : x ≠ vf ∨ s.params.qLogicClearsVf = false) :
    (s.setLogicResult x b).getV x = b := by
  have hkeeps : ¬(s.params.qLogicClearsVf = true ∧ x = vf) := by
    rintro ⟨hq, hx⟩
    exact h.elim (fun hne => hne hx) fun hq' => absurd (hq.symm.trans hq') nofun
  rw [State.getV_setLogicResult, if_neg hkeeps, if_pos rfl]

/-- The three logic instructions store their bitwise result alike (R173 to R175). -/
theorem exec_logic {s : State} {x y : Reg} {i : Instr} {w : Byte}
    (h : (i = .orReg x y ∧ w = s.getV x ||| s.getV y) ∨ (i = .andReg x y ∧ w = s.getV x &&& s.getV y) ∨
      (i = .xorReg x y ∧ w = s.getV x ^^^ s.getV y)) : exec i s = .next (s.setLogicResult x w) := by
  rcases h with ⟨rfl, rfl⟩ | ⟨rfl, rfl⟩ | ⟨rfl, rfl⟩ <;> rfl

/-- Settles O37. -/
theorem logicResultsAndTheClearedFlag : Obligations.LogicResultsAndTheClearedFlag := by
  intro s x y i w h
  refine ⟨_, exec_logic h, s.setLogicResult_eq x w, State.getV_setLogicResult_vf x w, State.getV_setLogicResult_self w,
    fun r hx hf => ?others, fun hx hq => ?kept⟩
  case others => exact s.getV_setLogicResult_ne w fun hr => hr.elim hx fun hr => hf hr.2
  case kept => exact s.getV_setLogicResult_ne w fun hr => hr.elim hx.symm fun hr => absurd (hr.1.symm.trans hq) nofun

/-! ## Subtraction -/

theorem exec_subReg (x y : Reg) (s : State) : exec (.subReg x y) s =
    .next (s.setResultFlag x (diffByte (s.getV x) (s.getV y)) (flagByte (noBorrowOf (s.getV x) (s.getV y)))) := rfl

theorem exec_subn (x y : Reg) (s : State) : exec (.subn x y) s =
    .next (s.setResultFlag x (diffByte (s.getV y) (s.getV x)) (flagByte (noBorrowOf (s.getV y) (s.getV x)))) := rfl

/-- The no-borrow flag as a number (R177, R179). -/
theorem flagByte_noBorrowOf_toNat (a b : Byte) :
    (flagByte (noBorrowOf a b)).toNat = if a.toNat ≥ b.toNat then 1 else 0 := by
  simp only [flagByte_toNat, noBorrowOf, decide_eq_true_eq, ge_iff_le]

/-- The registers after a difference and its flag, whichever operand is subtracted. -/
theorem State.setResultFlag_diff (s : State) (x : Reg) (a b : Byte) :
    (x ≠ vf → ((s.setResultFlag x (diffByte a b) (flagByte (noBorrowOf a b))).getV x).toNat =
      (a.toNat + 256 - b.toNat) % 256) ∧
    ((s.setResultFlag x (diffByte a b) (flagByte (noBorrowOf a b))).getV vf).toNat =
      (if a.toNat ≥ b.toNat then 1 else 0) ∧
    ∀ r, r ≠ x → r ≠ vf → (s.setResultFlag x (diffByte a b) (flagByte (noBorrowOf a b))).getV r = s.getV r := by
  refine ⟨fun hx => ?diff, ?flag, fun r hr hf => s.getV_setResultFlag_ne _ _ hr hf⟩
  case diff => rw [s.getV_setResultFlag_self _ _ hx, diffByte_toNat]
  case flag => rw [s.getV_setResultFlag_vf, flagByte_noBorrowOf_toNat]

/-- Settles O38. -/
theorem subtractionsSetNoBorrowLast : Obligations.SubtractionsSetNoBorrowLast :=
  fun s x y => ⟨⟨_, exec_subReg x y s, rfl, s.setResultFlag_diff x _ _⟩, ⟨_, exec_subn x y s, rfl, s.setResultFlag_diff x _ _⟩⟩

/-! ## Shifts -/

theorem exec_shr (x y : Reg) (s : State) : exec (.shr x y) s =
    .next (s.setResultFlag x (shiftSource x y s >>> 1) (lowBit (shiftSource x y s))) := rfl

theorem exec_shl (x y : Reg) (s : State) : exec (.shl x y) s =
    .next (s.setResultFlag x (shiftSource x y s <<< 1) (highBit (shiftSource x y s))) := rfl

theorem shiftSource_toNat (x y : Reg) (s : State) : (shiftSource x y s).toNat =
    if s.params.qShiftFromVy = true then (s.getV y).toNat else (s.getV x).toNat := by
  unfold shiftSource; split <;> rfl

theorem lowBit_toNat (b : Byte) : (lowBit b).toNat = b.toNat % 2 := by
  rw [lowBit, BitVec.toNat_and]; exact Nat.and_one_is_mod b.toNat

theorem highBit_toNat (b : Byte) : (highBit b).toNat = b.toNat / 128 := by
  rw [highBit, BitVec.toNat_ushiftRight, Nat.shiftRight_eq_div_pow]

theorem shiftRight_one_toNat (b : Byte) : (b >>> 1).toNat = b.toNat / 2 := by
  rw [BitVec.toNat_ushiftRight, Nat.shiftRight_eq_div_pow, Nat.pow_one]

theorem shiftLeft_one_toNat (b : Byte) : (b <<< 1).toNat = b.toNat * 2 % 256 := by
  rw [BitVec.toNat_shiftLeft, Nat.shiftLeft_eq, Nat.pow_one]

/-- Settles O39: the flag is written after the shifted byte, and both are of one source. -/
theorem shiftsSetTheShiftedOutBitLast : Obligations.ShiftsSetTheShiftedOutBitLast := by
  intro s x y src hsrc
  rw [← shiftSource_toNat] at hsrc
  subst hsrc
  refine ⟨⟨_, exec_shr x y s, rfl, fun hx => ?right, ?low, fun r hr hf => s.getV_setResultFlag_ne _ _ hr hf⟩,
    ⟨_, exec_shl x y s, rfl, fun hx => ?left, ?high, fun r hr hf => s.getV_setResultFlag_ne _ _ hr hf⟩⟩
  case right => rw [s.getV_setResultFlag_self _ _ hx, shiftRight_one_toNat]
  case low => rw [s.getV_setResultFlag_vf, lowBit_toNat]
  case left => rw [s.getV_setResultFlag_self _ _ hx, shiftLeft_one_toNat]
  case high => rw [s.getV_setResultFlag_vf, highBit_toNat]

/-! ## The key wait -/

theorem decode_encode_ldVxK (o : OpSet) (x : Reg) : decode o (encode (.ldVxK x)) = some (.ldVxK x) :=
  decode_encode (by cases o <;> rfl)

theorem exec_ldVxK_event {x : Reg} {s : State} {k : Nibble} (h : s.input.keyEvent = some k) :
    exec (.ldVxK x) s = .next (s.setV x (k.setWidth 8)) := by
  rw [exec, execLdVxK, h, captureKey]

theorem exec_ldVxK_none {x : Reg} {s : State} (h : s.input.keyEvent = none) : exec (.ldVxK x) s = .next s.wait := by
  rw [exec, execLdVxK, h, captureKey]

/-- Settles O51: the sum is the wait's word, and the key event chooses between one write of `V[x]` and the wait. -/
theorem keyWaitCapturesOrWaits : Obligations.KeyWaitCapturesOrWaits := by
  intro o s x
  refine ⟨?word, fun k hk => ?captures, fun hk => ⟨_, exec_ldVxK_none hk, rfl⟩⟩
  case word =>
    rw [ofNat_eq_encAxss 0xF#4 x 0x0A#8 0xF00A rfl]
    exact decode_encode_ldVxK o x
  case captures =>
    refine ⟨_, exec_ldVxK_event hk, rfl, ?_, fun _ hr => s.getV_setV_ne _ hr⟩
    rw [s.getV_setV_self]
    exact BitVec.toNat_setWidth_of_le (by decide)

end Sys2Proof.Machine
end

section
/-! Index arithmetic, and the runs of bytes that Fx33, Fx55 and Fx65 move (43_index_memory.md R221 to R225;
20_memory.md R73). -/

namespace Sys2Proof.Machine

/-! ## Index arithmetic -/

theorem exec_addI (x : Reg) (s : State) : exec (.addI x) s = .next (s.setI (s.i + (s.getV x).setWidth 16)) := rfl

theorem exec_ldF (x : Reg) (s : State) : exec (.ldF x) s = .next (s.setI (glyphAddr x s)) := rfl

theorem glyphAddr_toNat (x : Reg) (s : State) :
    (glyphAddr x s).toNat = s.params.fontBase.toNat + 5 * ((s.getV x).toNat % 16) := by
  have hfont := s.params.fontBase.isLt
  have hdigit : (lowNibble x s).toNat < 16 := (lowNibble x s).isLt
  rw [lowNibble_toNat] at hdigit
  rw [glyphAddr, BitVec.toNat_add, BitVec.toNat_mul, BitVec.toNat_setWidth, BitVec.toNat_setWidth, lowNibble_toNat]
  simp only [BitVec.reduceToNat]
  omega

/-- Settles O42: each is one write of `I`, which keeps the low 12 bits of the sum. -/
theorem indexArithmeticNarrowsToTwelveBits : Obligations.IndexArithmeticNarrowsToTwelveBits := by
  intro s x
  refine ⟨⟨_, exec_addI x s, rfl, ?sum⟩, ⟨_, exec_ldF x s, rfl, ?glyph⟩⟩
  case sum =>
    rw [State.setI_i, and_0xFFF_toNat, BitVec.toNat_add, BitVec.toNat_setWidth_of_le (by decide)]
    omega
  case glyph => rw [State.setI_i, and_0xFFF_toNat, glyphAddr_toNat]

/-! ## The two sides of each run's bounds check -/

theorem exec_ldB_past_end {x : Reg} {s : State} (h : 4096 < s.i.toNat + 3) :
    exec (.ldB x) s = .next (raiseIn (.ldB x) .outOfBounds (.access s.i.toNat 3) s) :=
  (execLdB_cases x s).elim (·.2) fun hfit => absurd hfit.1 (by omega)

theorem exec_ldB {x : Reg} {s : State} (h : s.i.toNat + 3 ≤ 4096) :
    exec (.ldB x) s = .next { s with mem := memPutRun s.mem s.i.toNat (decimalDigits (s.getV x)) } :=
  (execLdB_cases x s).elim (fun hlong => absurd hlong.1 (by omega)) (·.2)

theorem exec_storeRegs_past_end {x : Reg} {s : State} (h : 4096 < s.i.toNat + x.toNat + 1) :
    exec (.storeRegs x) s = .next (raiseIn (.storeRegs x) .outOfBounds (.access s.i.toNat (x.toNat + 1)) s) :=
  (execStoreRegs_cases x s).elim (·.2) fun hfit => absurd hfit.1 (by omega)

theorem exec_storeRegs {x : Reg} {s : State} (h : s.i.toNat + x.toNat + 1 ≤ 4096) : exec (.storeRegs x) s =
    .next (State.advanceI { s with mem := memPutRun s.mem s.i.toNat (s.regsUpTo x) } x) :=
  (execStoreRegs_cases x s).elim (fun hlong => absurd hlong.1 (by omega)) (·.2)

theorem exec_loadRegs_past_end {x : Reg} {s : State} (h : 4096 < s.i.toNat + x.toNat + 1) :
    exec (.loadRegs x) s = .next (raiseIn (.loadRegs x) .outOfBounds (.access s.i.toNat (x.toNat + 1)) s) :=
  (execLoadRegs_cases x s).elim (·.2) fun hfit => absurd hfit.1 (by omega)

/-- The bytes that Fx65 loads (R225). -/
def loadedBytes (s : State) (x : Reg) : List Byte := (List.range (x.toNat + 1)).map fun k => memByte s.mem (s.i.toNat + k)

theorem exec_loadRegs {x : Reg} {s : State} (h : s.i.toNat + x.toNat + 1 ≤ 4096) : exec (.loadRegs x) s =
    .next (State.advanceI { s with v := regsPutRun s.v 0 (loadedBytes s x) } x) :=
  (execLoadRegs_cases x s).elim (fun hlong => absurd hlong.1 (by omega)) (·.2)

/-! ## Fx33 -/

/-- Settles O43: the digits are the three bytes of one run of stores. -/
theorem decimalSplitStoresThreeDigitsOrFaults : Obligations.DecimalSplitStoresThreeDigitsOrFaults := by
  intro s x hm
  refine ⟨fun hfit => ?fits, fun hlong => ⟨_, exec_ldB_past_end hlong, rfl⟩⟩
  case fits =>
    have hbyte := (s.getV x).isLt
    have hrun := memByte_memPutRun_inside (decimalDigits (s.getV x)) hm hfit
    have hdigit {n : Nat} (h : n < 256) : (BitVec.ofNat 8 n).toNat = n := by rw [BitVec.toNat_ofNat, Nat.mod_eq_of_lt h]
    refine ⟨_, exec_ldB hfit, rfl, ?hundreds, ?tens, ?units, fun _ ha => memByte_memPutRun_outside _ _ _ ha⟩
    case hundreds => exact (congrArg BitVec.toNat (hrun 0 (by simp))).trans (hdigit (by omega))
    case tens => exact (congrArg BitVec.toNat (hrun 1 (by simp))).trans (hdigit (by omega))
    case units => exact (congrArg BitVec.toNat (hrun 2 (by simp))).trans (hdigit (by omega))

/-! ## Fx55 -/

/-- The byte stored for a register of the run (R224). -/
theorem memByte_storedRegs {s : State} {x r : Reg} (hm : Memory.wf s.mem = true) (hfit : s.i.toNat + x.toNat + 1 ≤ 4096)
    (hr : r.toNat ≤ x.toNat) : memByte (memPutRun s.mem s.i.toNat (s.regsUpTo x)) (s.i.toNat + r.toNat) = s.getV r := by
  have hlen := s.regsUpTo_length x
  rw [memByte_memPutRun_inside _ hm (by rw [hlen]; exact hfit) r.toNat (by omega), s.regsUpTo_get]

/-- Settles O44: the registers are one run of stores, and the step of `I` comes after it. -/
theorem blockStoreWritesTheRunOrFaults : Obligations.BlockStoreWritesTheRunOrFaults := by
  intro s x hm
  refine ⟨fun hfit => ?fits, fun hlong => ⟨_, exec_storeRegs_past_end hlong, rfl⟩⟩
  case fits =>
    refine ⟨_, exec_storeRegs hfit, ?frame, State.advanceI_i_toNat _ x, fun r hr => ?inside, fun a ha => ?outside⟩
    case frame => rw [State.advanceI_mem]; exact State.advanceI_eq _ x
    case inside => rw [State.advanceI_mem]; exact memByte_storedRegs hm hfit hr
    case outside =>
      rw [State.advanceI_mem]
      exact memByte_memPutRun_outside _ _ _ (by rw [s.regsUpTo_length]; exact ha)

/-- Settles O23: the next fetch reads the first two bytes of the run. -/
theorem fetchSeesTheStoredBytes : Obligations.FetchSeesTheStoredBytes := by
  intro s t x hm h hfit hx hpc
  cases (exec_storeRegs hfit).symm.trans h
  rw [fetchWord_toNat, State.advanceI_mem, State.advanceI_pc, hpc]
  have h0 := memByte_storedRegs (r := 0x0#4) hm hfit (Nat.zero_le _)
  have h1 := memByte_storedRegs (r := 0x1#4) hm hfit hx
  rw [← h0, ← h1]; rfl

/-! ## Fx65 -/

theorem getV_loadedRegs (s : State) (x r : Reg) : (regsPutRun s.v 0 (loadedBytes s x))[r.toNat] =
    if r.toNat ≤ x.toNat then memByte s.mem (s.i.toNat + r.toNat) else s.getV r := by
  rw [regsPutRun_get]
  simp [loadedBytes, State.getV]

/-- Settles O45: the run is read before any register is written, and the step of `I` comes last. -/
theorem blockLoadReadsTheRunOrFaults : Obligations.BlockLoadReadsTheRunOrFaults := by
  intro s x
  refine ⟨fun hfit => ?fits, fun hlong => ⟨_, exec_loadRegs_past_end hlong, rfl⟩⟩
  case fits =>
    refine ⟨_, exec_loadRegs hfit, ?frame, State.advanceI_i_toNat _ x, fun r => ?regs⟩
    case frame => rw [State.advanceI_v]; exact State.advanceI_eq _ x
    case regs => rw [State.getV_congr (State.advanceI_v _ x)]; exact getV_loadedRegs s x r

end Sys2Proof.Machine
end

section
/-! `draw_sprite` against the hits of its set bits, drawn once, twice, and by Dxyn (44_display.md R261, R263, R264). -/

namespace Sys2Proof.Machine

section
variable (d : Display) {rows : List Byte} (ox oy : Nat) (hlen : rows.length ≤ 32)
include hlen

open Classical in
/-- Every pixel after a draw: turned over exactly where a set bit hits (R261). -/
theorem pixel_drawSprite (y : Fin 32) (x : Fin 64) :
    pixel (drawSprite d rows ox oy).1 y x = (pixel d y x ^^ decide (spriteHits rows ox oy y x)) := by
  rw [drawSprite, (drawRows_spec ox oy rows 0 (by omega) (d, false)).1]
  simp only [spriteHitsFrom_zero]

theorem pixel_drawSprite_hit {y : Fin 32} {x : Fin 64} (h : spriteHits rows ox oy y x) :
    pixel (drawSprite d rows ox oy).1 y x = !pixel d y x := by
  simp [pixel_drawSprite d ox oy hlen, h]

theorem pixel_drawSprite_miss {y : Fin 32} {x : Fin 64} (h : ¬ spriteHits rows ox oy y x) :
    pixel (drawSprite d rows ox oy).1 y x = pixel d y x := by
  simp [pixel_drawSprite d ox oy hlen, h]

/-- A collision is a hit on a pixel that was 1 (R261). -/
theorem drawSprite_collision :
    (drawSprite d rows ox oy).2 = true ↔ ∃ y x, spriteHits rows ox oy y x ∧ pixel d y x = true := by
  rw [drawSprite, (drawRows_spec ox oy rows 0 (by omega) (d, false)).2]
  simp [spriteHitsFrom_zero]

/-- On a clear display the pixels set are the hits. -/
theorem pixel_drawSprite_clear (y : Fin 32) (x : Fin 64) :
    pixel (drawSprite displayClear rows ox oy).1 y x = true ↔ spriteHits rows ox oy y x := by
  simp [pixel_drawSprite displayClear ox oy hlen]

end

/-- Settles O47. -/
theorem spriteXorsItsBitsWithWraparound : Obligations.SpriteXorsItsBitsWithWraparound :=
  fun d _ ox oy hlen => ⟨fun _ _ => pixel_drawSprite_hit d ox oy hlen, fun _ _ => pixel_drawSprite_miss d ox oy hlen,
    drawSprite_collision d ox oy hlen⟩

/-- Settles O49: two draws turn each pixel over twice or not at all; on a clear display the hits are the pixels set. -/
theorem drawingTwiceRestoresTheDisplay : Obligations.DrawingTwiceRestoresTheDisplay := by
  intro d rows ox oy hlen
  refine ⟨display_ext fun y x => ?restored, ?noCollision, ?collision⟩
  case restored =>
    rw [pixel_drawSprite _ ox oy hlen, pixel_drawSprite d ox oy hlen, Bool.xor_assoc, Bool.xor_self, Bool.xor_false]
  case noCollision =>
    rw [← Bool.not_eq_true, drawSprite_collision _ ox oy hlen]
    simp
  case collision =>
    simp only [drawSprite_collision _ ox oy hlen, pixel_drawSprite_clear ox oy hlen, and_self]

/-! ## Dxyn -/

theorem decode_encode_drw (o : OpSet) (x y : Reg) (n : Nibble) : decode o (encode (.drw x y n)) = some (.drw x y n) :=
  decode_encode (by cases o <;> rfl)

theorem exec_drw_past_end {x y : Reg} {n : Nibble} {s : State} (h : 4096 < s.i.toNat + n.toNat) :
    exec (.drw x y n) s = .next (raiseIn (.drw x y n) .outOfBounds (.access s.i.toNat n.toNat) s) :=
  (execDrw_cases x y n s).elim (·.2) fun hfit => absurd hfit.1 (by omega)

/-- The sprite that Dxyn draws, and whether it collides (R263). -/
def drawn (x y : Reg) (n : Nibble) (s : State) : Display × Bool :=
  drawSprite s.disp (spriteRows s n) (s.getV x).toNat (s.getV y).toNat

theorem exec_drw {x y : Reg} {n : Nibble} {s : State} (h : s.i.toNat + n.toNat ≤ 4096) : exec (.drw x y n) s =
    .next (State.setV { s with disp := (drawn x y n s).1 } vf (flagByte (drawn x y n s).2)) :=
  (execDrw_cases x y n s).elim (fun hlong => absurd hlong.1 (by omega)) (·.2)

theorem flagByte_of_iff {c : Bool} {p : Prop} (h : c = true ↔ p) : (p → flagByte c = 1#8) ∧ (¬ p → flagByte c = 0#8) := by
  cases c
  · exact ⟨fun hp => absurd (h.2 hp) nofun, fun _ => rfl⟩
  · exact ⟨fun _ => rfl, fun hp => absurd (h.1 rfl) hp⟩

/-- Settles O48: the sum is the draw's word, its rows are `spriteRows`, and VF is written after the display. -/
theorem drawReadsItsRowsAndSetsTheCollision : Obligations.DrawReadsItsRowsAndSetsTheCollision := by
  intro o s x y n rows hrows
  obtain rfl : rows = spriteRows s n := hrows
  refine ⟨?word, fun hfit => ?fits, fun hlong => ⟨_, exec_drw_past_end hlong, rfl⟩⟩
  case word =>
    rw [ofNat_eq_encAxyn 0xD#4 x y n 0xD000 rfl]
    exact decode_encode_drw o x y n
  case fits =>
    have hlen : (spriteRows s n).length ≤ 32 := by
      have := n.isLt
      rw [spriteRows_length]; omega
    obtain ⟨hset, hclear⟩ := flagByte_of_iff (drawSprite_collision s.disp (s.getV x).toNat (s.getV y).toNat hlen)
    refine ⟨_, exec_drw hfit, rfl, fun ty tx => pixel_drawSprite_hit s.disp _ _ hlen,
      fun ty tx => pixel_drawSprite_miss s.disp _ _ hlen, fun h => ?_, fun h => ?_, fun r hr => State.getV_setV_ne _ _ hr⟩
    · exact (State.getV_setV_self _ vf _).trans (hset h)
    · exact (State.getV_setV_self _ vf _).trans (hclear h)

end Sys2Proof.Machine
end
